-- ==== Sys2Proof/Word.lean ====
section
/-! DEFINITION. The word of the OSHW1 processor block and its plainest readings (00_scope.md R9, R10), and the four words of
an instruction (30_encoding.md R100, R101). `XLEN` is a configuration field (R8, R9, decision D1), so every operation that
depends on the width takes it as an argument. -/

namespace Sys2Proof

/-- The decided default of `XLEN`, the bits in a word, a register and an instruction field: 32 (R9, decision D1). It is the
width of the opcode table's words (R101); the width of a block is the field `Config.xlen`. -/
abbrev XLEN : Nat := 32

/-- A word, as its two's-complement signed reading, which is how a word is read "unless a rule says otherwise" (R10). Which
integers are words of a block is `isWord`, and every step keeps every word of the state one (log 13). -/
abbrev Word := Int

/-- `wrap(n)` at a width: the word congruent to the integer modulo 2^`XLEN` (R10). -/
def wrap (xlen : Nat) (n : Int) : Int := Int.bmod n (2 ^ xlen)

/-- The integer is the signed reading of a word of the width: wrapping leaves it alone (R10). -/
def isWord (xlen : Nat) (w : Int) : Bool := decide (wrap xlen w = w)

/-- The unsigned reading `u(w)` of a word of the width (R10). -/
def uval (xlen : Nat) (w : Word) : Nat := (w % ((2 ^ xlen : Nat) : Int)).toNat

/-- The four words of an instruction, opcode first (R100). -/
structure Tuple where
  w0 : Word
  w1 : Word
  w2 : Word
  w3 : Word
deriving DecidableEq, Repr, Inhabited

/-- All four are words of the width. -/
def Tuple.fits (xlen : Nat) (t : Tuple) : Bool := isWord xlen t.w0 && isWord xlen t.w1 && isWord xlen t.w2 && isWord xlen t.w3

end Sys2Proof
end

