-- ==== Sys2Proof/Machine/Port.lean ====
section
/-! DEFINITION. The data that the block's units hold and exchange, as plain types: the register file (10_state.md R20, R21),
memory cells (20_memory.md R60), mailbox events (10_state.md R30), the calls of the trap port (60_exceptions.md R220) and
the kernel's answer to one (R226 to R228). -/

namespace Sys2Proof.Machine

/-- The nine register names (R20, R21). -/
inductive Reg
  | r0 | r1 | r2 | r3 | r4 | pc | sp | base | lim
deriving DecidableEq, Repr

/-- Every register name, in the order of R21. -/
def Reg.all : List Reg := [.r0, .r1, .r2, .r3, .r4, .pc, .sp, .base, .lim]

/-- The register file: nine registers of one word, none hardwired (R20, R22). -/
structure Regs where
  r0 : Word
  r1 : Word
  r2 : Word
  r3 : Word
  r4 : Word
  pc : Word
  sp : Word
  base : Word
  lim : Word
deriving DecidableEq, Repr, Inhabited

/-- One word of memory at a physical word address. Memory has no bytes (R62), so the word is the cell (log 3). -/
abbrev MemCell := Nat × Word

/-- Memory as data: addresses strictly rising, no cell holding 0, which is what an unlisted address reads as (R35, R60). -/
structure Memory where
  cells : List MemCell
deriving DecidableEq, Repr, Inhabited

/-- "kind ∈ {read-complete, write-complete}" (R30). -/
inductive EventKind
  | readComplete | writeComplete
deriving DecidableEq, Repr, Inhabited

/-- An InterruptEvent: kind, device id, address, data (R30). -/
structure InterruptEvent where
  kind : EventKind
  dev : Word
  addr : Word
  data : Word
deriving DecidableEq, Repr, Inhabited

/-- The seven outputs of the trap-dispatch multiplexer with their payloads (R220). -/
inductive TrapCall
  /-- `IllegalMemoryAccess(va)` (R221). -/
  | illegalMemoryAccess (va : Word)
  /-- `DivideByZero()` (R222). -/
  | divideByZero
  /-- `IllegalInstruction()` (R223). -/
  | illegalInstruction
  /-- `SystemCall()` (R225). -/
  | systemCall
  /-- `Clock()` (R248). -/
  | clock
  /-- `IOReadComplete(dev, addr, data)` (R247). -/
  | ioReadComplete (dev addr data : Word)
  /-- `IOWriteComplete(dev, addr, data)` (R247). -/
  | ioWriteComplete (dev addr data : Word)
deriving DecidableEq, Repr

/-- What the kernel sees at a call, `S` of R226: the registers, the memory and the tick counter. -/
structure KernelView where
  regs : Regs
  mem : Memory
  ticks : Nat
deriving DecidableEq, Repr

/-- What one call of the kernel leaves: the register and memory writes of the kernel access port in the order made, the
ticks it adds, and the two response lines `HALT` and `HOLD_PC` (R226 to R228). Nothing else of the block is within its
reach, and no fewer ticks than before can be written down. -/
structure KernelAnswer where
  regs : List (Reg × Word)
  mem : List MemCell
  addTicks : Nat
  halt : Bool
  holdPc : Bool
deriving DecidableEq, Repr, Inhabited

/-- One call of the trap port as it left the engine: the call, and PC and the tick counter as the handler sees them. -/
structure TrapRecord where
  call : TrapCall
  pc : Word
  ticks : Nat
deriving DecidableEq, Repr

end Sys2Proof.Machine
end

