-- ==== Sys2Proof/Config.lean ====
section
/-! DEFINITION. The parameters of 00_scope.md R9 as one record of plain data, the decided numberings as its defaults, and
the free values of the model: the kernel `K` (60_exceptions.md R226) and the word a memory fault carries when its address
fits no word. -/

namespace Sys2Proof

open Machine (Reg TrapCall KernelView KernelAnswer)

/-- `XLATE_MODE` (R9, R67). -/
inductive XlateMode
  | segment | paged
deriving DecidableEq, Repr

/-- The fourteen mnemonics (30_encoding.md R103). -/
inductive Opcode
  | set | add | sub | mul | div | copy | branch | bne | blt | pop | push | load | save | trap
deriving DecidableEq, Repr

/-- Every mnemonic, in the order of R103. -/
def Opcode.all : List Opcode :=
  [.set, .add, .sub, .mul, .div, .copy, .branch, .bne, .blt, .pop, .push, .load, .save, .trap]

/-- `OPC`: the opcode word of each mnemonic (R9, R103). -/
structure OpcMap where
  set : Word
  add : Word
  sub : Word
  mul : Word
  div : Word
  copy : Word
  branch : Word
  bne : Word
  blt : Word
  pop : Word
  push : Word
  load : Word
  save : Word
  trap : Word
deriving DecidableEq, Repr

/-- The opcode word of a mnemonic. -/
def OpcMap.word (m : OpcMap) : Opcode → Word
  | .set => m.set
  | .add => m.add
  | .sub => m.sub
  | .mul => m.mul
  | .div => m.div
  | .copy => m.copy
  | .branch => m.branch
  | .bne => m.bne
  | .blt => m.blt
  | .pop => m.pop
  | .push => m.push
  | .load => m.load
  | .save => m.save
  | .trap => m.trap

/-- `OPC` is injective (R9). -/
def OpcMap.injective (m : OpcMap) : Bool := decide (Opcode.all.map m.word).Nodup

/-- `OPC` maps to words of the width (R9, R103). -/
def OpcMap.fits (xlen : Nat) (m : OpcMap) : Bool := Opcode.all.all fun o => isWord xlen (m.word o)

/-- The numbering 0..13 of R103 (decision D3). -/
def OpcMap.standard : OpcMap :=
  { set := 0, add := 1, sub := 2, mul := 3, div := 4, copy := 5, branch := 6, bne := 7, blt := 8, pop := 9, push := 10,
    load := 11, save := 12, trap := 13 }

/-- `REGNUM`: the index of each register name (R9, R21). -/
structure RegMap where
  r0 : Nat
  r1 : Nat
  r2 : Nat
  r3 : Nat
  r4 : Nat
  pc : Nat
  sp : Nat
  base : Nat
  lim : Nat
deriving DecidableEq, Repr

/-- The index of a register name. -/
def RegMap.index (m : RegMap) : Reg → Nat
  | .r0 => m.r0
  | .r1 => m.r1
  | .r2 => m.r2
  | .r3 => m.r3
  | .r4 => m.r4
  | .pc => m.pc
  | .sp => m.sp
  | .base => m.base
  | .lim => m.lim

/-- The nine names have the nine indices 0..8, each once (R21, R105). -/
def RegMap.bijective (m : RegMap) : Bool :=
  decide (Reg.all.map m.index).Nodup && (Reg.all.map m.index).all fun k => decide (k ≤ 8)

/-- The numbering of R21 (decision D4). -/
def RegMap.standard : RegMap :=
  { r0 := 0, r1 := 1, r2 := 2, r3 := 3, r4 := 4, pc := 5, sp := 6, base := 7, lim := 8 }

/-- The parameters of R9. The kernel `K`, the last of them, is `Config.kernel` below. -/
structure Config where
  /-- `XLEN`, the bits in a word (R9, D1). -/
  xlen : Nat
  /-- `MEM_SIZE`. -/
  memSize : Nat
  /-- `XLATE_MODE`. -/
  mode : XlateMode
  /-- `CLOCK_PERIOD`. -/
  clockPeriod : Nat
  /-- `PAGE_SIZE_CFG`, read in paged mode only. -/
  pageSizeCfg : Nat
  /-- `MIN_PAGE_SIZE`, read in paged mode only. -/
  minPageSize : Nat
  /-- `PTE_STATUS_BITS`, read in paged mode only. -/
  pteStatusBits : Nat
  /-- `NUM_VPAGES`, read in paged mode only. -/
  numVPages : Nat
  /-- `OPC`. -/
  opc : OpcMap
  /-- `REGNUM`. -/
  regnum : RegMap
deriving DecidableEq, Repr

/-- DESIGN CHOICE (log 1): the configuration of `State.reset`. The parameters that R9 leaves open have the values of the spec's
own worked examples (95_test_vectors.md: `MEM_SIZE` 256, `CLOCK_PERIOD` 1000, segment mode, and for the paged examples
`PAGE_SIZE_CFG` 20 and `MIN_PAGE_SIZE` 4 of V70, 3 status bits); the decided ones have their defaults (`XLEN` 32 of D1, 16
virtual pages of D28, the numberings of D3 and D4; log 2). -/
def Config.worked : Config :=
  { xlen := XLEN, memSize := 256, mode := .segment, clockPeriod := 1000, pageSizeCfg := 20, minPageSize := 4, pteStatusBits := 3,
    numVPages := 16, opc := .standard, regnum := .standard }

/-- The FREE VALUE that stands for the kernel `K` (R226, D25; log 4): from the kernel's private state, the call and
what the kernel sees, an answer and the next private state. It has no body: nothing is known of any answer, so a
statement about it holds for every kernel. -/
opaque Config.kernel : Nat → TrapCall → KernelView → KernelAnswer × Nat

/-- The FREE VALUE, a word once wrapped, for the one-word payload of `IllegalMemoryAccess(va)` (R220) when the integer `va` fits
no word, which only `StackVA` can produce (42_stack.md R160; log 11). -/
opaque Config.wideAddress : Int → Word

end Sys2Proof
end

