-- ==== Sys2Proof/Syntax.lean ====
section
/-! DEFINITION. The fourteen instructions as syntax (30_encoding.md R102, R103). Every operand is the whole word the
format names: a register field holds its word as fetched, and `Reg` of R105 looks at it when the instruction executes,
so that a known opcode with a bad register index is an instruction too (R113). -/

namespace Sys2Proof

/-- The closed enumeration of R103, with the operands of R102 in the order of `w1`, `w2`, `w3`. -/
inductive Instr
  /-- SET rd, imm (R130). -/
  | set (rd imm : Word)
  /-- ADD rd, rs1, rs2 (R131). -/
  | add (rd rs1 rs2 : Word)
  /-- SUB rd, rs1, rs2 (R132). -/
  | sub (rd rs1 rs2 : Word)
  /-- MUL rd, rs1, rs2 (R133). -/
  | mul (rd rs1 rs2 : Word)
  /-- DIV rd, rs1, rs2 (R134). -/
  | div (rd rs1 rs2 : Word)
  /-- COPY rd, rs (R135). -/
  | copy (rd rs : Word)
  /-- BRANCH addr (R151). -/
  | branch (addr : Word)
  /-- BNE ra, rb, addr (R152). -/
  | bne (ra rb addr : Word)
  /-- BLT ra, rb, addr (R153). -/
  | blt (ra rb addr : Word)
  /-- POP r (R162). -/
  | pop (r : Word)
  /-- PUSH r (R161). -/
  | push (r : Word)
  /-- LOAD rd, ra (R171). -/
  | load (rd ra : Word)
  /-- SAVE rs, ra (R172). -/
  | save (rs ra : Word)
  /-- TRAP (R180). -/
  | trap
deriving DecidableEq, Repr

end Sys2Proof
end

