-- ==== Sys2Proof/WellFormed.lean ====
section
/-! DEFINITION. When an instruction is well formed: every register field holds an index 0..8 (30_encoding.md R104, R105). And
when it fits a width: every operand is a word of it. Immediates, addresses and unused words carry no other condition (R106,
R107). -/

namespace Sys2Proof

/-- The words of the fields that the instruction's format marks "register index" (R102). -/
def Instr.regFields : Instr → List Word
  | .set rd _ => [rd]
  | .add rd rs1 rs2 => [rd, rs1, rs2]
  | .sub rd rs1 rs2 => [rd, rs1, rs2]
  | .mul rd rs1 rs2 => [rd, rs1, rs2]
  | .div rd rs1 rs2 => [rd, rs1, rs2]
  | .copy rd rs => [rd, rs]
  | .branch _ => []
  | .bne ra rb _ => [ra, rb]
  | .blt ra rb _ => [ra, rb]
  | .pop r => [r]
  | .push r => [r]
  | .load rd ra => [rd, ra]
  | .save rs ra => [rs, ra]
  | .trap => []

/-- The words of the fields that hold an immediate or an address (R102, R106). -/
def Instr.immediates : Instr → List Word
  | .set _ imm => [imm]
  | .add _ _ _ => []
  | .sub _ _ _ => []
  | .mul _ _ _ => []
  | .div _ _ _ => []
  | .copy _ _ => []
  | .branch addr => [addr]
  | .bne _ _ addr => [addr]
  | .blt _ _ addr => [addr]
  | .pop _ => []
  | .push _ => []
  | .load _ _ => []
  | .save _ _ => []
  | .trap => []

/-- The word is a register index of the block: `0 <= w <= 8` on its signed reading (R105). -/
def regIndexOk (w : Int) : Bool := decide (0 ≤ w) && decide (w ≤ 8)

/-- Every register field is an index of R105. -/
def Instr.wellFormed (i : Instr) : Bool := i.regFields.all regIndexOk

/-- Every operand is a word of the width (R101: each field is a whole word). -/
def Instr.fits (xlen : Nat) (i : Instr) : Bool := i.regFields.all (isWord xlen) && i.immediates.all (isWord xlen)

end Sys2Proof
end

