-- ==== Sys2Proof/Decode.lean ====
section
/-! DEFINITION. Decoding as 30_encoding.md R113 gives it, a total function from four words, and the encoder of the same
tables (R102, R103). -/

namespace Sys2Proof

/-- Why four words are no instruction: the one reason there is (R108). A register field outside 0..8 is found when the
instruction executes (R105, R113). -/
inductive Illegal
  /-- The opcode word is not one of the fourteen (R108). -/
  | unknownOpcode (w0 : Word)
deriving DecidableEq, Repr

/-- Step (1) of R113: look the opcode word up in `OPC`. -/
def OpcMap.lookup (m : OpcMap) (w0 : Word) : Option Opcode := Opcode.all.find? fun o => m.word o == w0

/-- Step (2) of R113: the operands of a known opcode, from the words its format gives them (R102). Unused words are
ignored (R107). -/
def Opcode.operands (o : Opcode) (t : Tuple) : Instr :=
  match o with
  | .set => .set t.w1 t.w2
  | .add => .add t.w1 t.w2 t.w3
  | .sub => .sub t.w1 t.w2 t.w3
  | .mul => .mul t.w1 t.w2 t.w3
  | .div => .div t.w1 t.w2 t.w3
  | .copy => .copy t.w1 t.w2
  | .branch => .branch t.w1
  | .bne => .bne t.w1 t.w2 t.w3
  | .blt => .blt t.w1 t.w2 t.w3
  | .pop => .pop t.w1
  | .push => .push t.w1
  | .load => .load t.w1 t.w2
  | .save => .save t.w1 t.w2
  | .trap => .trap

/-- Decoding (R113): every tuple is one instruction or illegal. -/
def decode (m : OpcMap) (t : Tuple) : Except Illegal Instr :=
  match m.lookup t.w0 with
  | some o => .ok (o.operands t)
  | none => .error (.unknownOpcode t.w0)

/-- The mnemonic of an instruction (R103). -/
def Instr.opcode : Instr → Opcode
  | .set .. => .set
  | .add .. => .add
  | .sub .. => .sub
  | .mul .. => .mul
  | .div .. => .div
  | .copy .. => .copy
  | .branch .. => .branch
  | .bne .. => .bne
  | .blt .. => .blt
  | .pop .. => .pop
  | .push .. => .push
  | .load .. => .load
  | .save .. => .save
  | .trap => .trap

/-- The four words of an instruction, unused words 0 (R102, R103, R107). -/
def encode (m : OpcMap) : Instr → Tuple
  | .set rd imm => ⟨m.set, rd, imm, 0⟩
  | .add rd rs1 rs2 => ⟨m.add, rd, rs1, rs2⟩
  | .sub rd rs1 rs2 => ⟨m.sub, rd, rs1, rs2⟩
  | .mul rd rs1 rs2 => ⟨m.mul, rd, rs1, rs2⟩
  | .div rd rs1 rs2 => ⟨m.div, rd, rs1, rs2⟩
  | .copy rd rs => ⟨m.copy, rd, rs, 0⟩
  | .branch addr => ⟨m.branch, addr, 0, 0⟩
  | .bne ra rb addr => ⟨m.bne, ra, rb, addr⟩
  | .blt ra rb addr => ⟨m.blt, ra, rb, addr⟩
  | .pop r => ⟨m.pop, r, 0, 0⟩
  | .push r => ⟨m.push, r, 0, 0⟩
  | .load rd ra => ⟨m.load, rd, ra, 0⟩
  | .save rs ra => ⟨m.save, rs, ra, 0⟩
  | .trap => ⟨m.trap, 0, 0, 0⟩

/-- The four words as the one value `I` of R101, of 4 times `XLEN` bits with `w0` in the lowest. -/
def Tuple.value (xlen : Nat) (t : Tuple) : Nat :=
  uval xlen t.w0 + uval xlen t.w1 * 2 ^ xlen + uval xlen t.w2 * 2 ^ (2 * xlen) + uval xlen t.w3 * 2 ^ (3 * xlen)

/-- The four words of such a value (R101). -/
def Tuple.ofValue (xlen n : Nat) : Tuple :=
  ⟨wrap xlen n, wrap xlen ((n / 2 ^ xlen : Nat) : Int), wrap xlen ((n / 2 ^ (2 * xlen) : Nat) : Int),
    wrap xlen ((n / 2 ^ (3 * xlen) : Nat) : Int)⟩

/-- The tuple whose lowest `nbits` bits are those of `w` and whose other bits are 0. -/
def Tuple.ofTableWord (xlen nbits w : Nat) : Tuple := Tuple.ofValue xlen (w % 2 ^ nbits)

/-- The instruction that the decoder reads from an opcode-table word, under the width and the numbering of the table, which
are the decided ones (R101, R103). -/
def decodeTableWord (nbits w : Nat) : Option Instr :=
  (decode .standard (Tuple.ofTableWord XLEN nbits w)).toOption

end Sys2Proof
end

