-- ==== Sys2Proof/Machine/State.lean ====
section
/-! DEFINITION. The state of the block (10_state.md R20 to R33) with what a run is given beside it: the configuration
(00_scope.md R9) and the environment, the kernel and the device agents (R34). All of it is plain data. -/

namespace Sys2Proof.Machine

/-- The environment of the block. None of it is state of the block (R34): it is what the other agents do to it. -/
structure Env where
  /-- The answers that the next calls of the kernel return, next one first. They name a kernel as far as they reach (R14);
  past them the kernel is the free value `Config.kernel` (log 4). -/
  answers : List KernelAnswer
  /-- The kernel's private state (R226), an argument of `Config.kernel` (log 4). -/
  kappa : Nat
  /-- The posts of the device agents in the order in which they complete, one entry a turn: a cycle has a turn before its take
  and one after it. `none` is a turn in which no post completes. A post that finds the slot full stays first in the list, blocked
  (R231, R242, R245; log 7). -/
  posts : List (Option InterruptEvent)
  /-- Every call that left the trap port (R232), newest first (log 8). -/
  log : List TrapRecord
deriving DecidableEq, Repr

/-- The state: `regs`, `mem`, `ticks`, `mbox`, `halted` and `pcHold` are the whole state of the block (10_state.md), and
`cfg` and `env` are the run's configuration and environment. -/
structure State where
  /-- The nine registers (R20). -/
  regs : Regs
  /-- The memory array (R33). -/
  mem : Memory
  /-- The tick counter, without bound (R29). -/
  ticks : Nat
  /-- The mailbox slot: `none` is `Empty` (R30). -/
  mbox : Option InterruptEvent
  /-- The bit `halted` (R31). -/
  halted : Bool
  /-- The bit `pc_hold`, alive within one cycle (R32). -/
  pcHold : Bool
  /-- The parameters of R9, fixed for a run (log 1). -/
  cfg : Config
  /-- The kernel and the device agents (log 4, log 7, log 8). -/
  env : Env
deriving DecidableEq, Repr

/-- What stops the machine. The spec's own faults are trap kinds, calls of the kernel after which the machine goes on
(R182), and are not here. -/
inductive Fault
  /-- Raised by `step` when `halted` is set and no device agent can move: `step()` is not enabled and nothing else acts on
  the block (R190, R200; log 9). Safe: the hardware does nothing there. -/
  | engineHalted
deriving DecidableEq, Repr

/-- Why the model gives no step. -/
inductive Refusal
  /-- Answered by an arm of `exec` whose instruction has no meaning yet. Safe: the model stops. No arm does so. -/
  | notModelled (mnemonic : String)
  /-- Answered by `step` when `cfg` is not a configuration of the block (R9, R70; U17 gives this treatment; log 10). Safe:
  there is no such hardware. -/
  | notAConfiguration
deriving DecidableEq, Repr

/-- The state after reset (R35, R280) of a block with the given configuration in the given environment: reset puts
every piece of the block's state to the table's value and leaves the configuration and the kernel as they are. -/
def State.resetWith (cfg : Config) (env : Env) : State where
  regs := { r0 := 0, r1 := 0, r2 := 0, r3 := 0, r4 := 0, pc := 0, sp := 0, base := 0, lim := 0 }
  mem := { cells := [] }
  ticks := 0
  mbox := none
  halted := false
  pcHold := false
  cfg := cfg
  env := env

/-- DESIGN CHOICE (log 4, log 7, log 8): the environment of `State.reset`: no kernel answer is settled beforehand, no post
is under way and no call has been made. -/
def Env.initial : Env := { answers := [], kappa := 0, posts := [], log := [] }

/-- The machine right after reset (R35), in the configuration `Config.worked` (log 1). -/
def State.reset : State := .resetWith .worked .initial

end Sys2Proof.Machine
end

