-- ==== Sys2Proof/Machine/Ops.lean ====
section
/-! DEFINITION. The operations every meaning is written with: registers (10_state.md R20), the memory array and its port
(20_memory.md R60, R61), configuration checks (00_scope.md R9), the translator (R67 to R74), the access primitives (R76),
and taking a trap: one call of the kernel through the trap port (60_exceptions.md R224 to R228). -/

namespace Sys2Proof.Machine

/-- The result of a step or of a meaning. -/
abbrev Result := Host.Outcome State Fault Refusal

/-! ### Registers -/

/-- `x[i]` (R20). -/
def Regs.get (x : Regs) : Reg → Word
  | .r0 => x.r0
  | .r1 => x.r1
  | .r2 => x.r2
  | .r3 => x.r3
  | .r4 => x.r4
  | .pc => x.pc
  | .sp => x.sp
  | .base => x.base
  | .lim => x.lim

/-- `x[i] <- v`: a write replaces the whole word (R20). No register is hardwired (R22). -/
def Regs.set (x : Regs) (r : Reg) (v : Word) : Regs :=
  match r with
  | .r0 => { x with r0 := v }
  | .r1 => { x with r1 := v }
  | .r2 => { x with r2 := v }
  | .r3 => { x with r3 := v }
  | .r4 => { x with r4 := v }
  | .pc => { x with pc := v }
  | .sp => { x with sp := v }
  | .base => { x with base := v }
  | .lim => { x with lim := v }

/-- The word in a register (R20), as its signed reading (R10). -/
def State.reg (s : State) (r : Reg) : Int := s.regs.get r

/-- Write a register (R20). -/
def State.setReg (s : State) (r : Reg) (v : Word) : State := { s with regs := s.regs.set r v }

/-! ### The memory array -/

/-- The word a list of cells holds at an address; an unlisted address reads 0, the reset value (R35, R60). -/
def readCells : List MemCell → Nat → Word
  | [], _ => 0
  | (b, w) :: rest, a => if a = b then w else readCells rest a

/-- Put a word at an address in a rising list of cells, listing no cell that holds 0. -/
def writeCells : List MemCell → Nat → Word → List MemCell
  | [], a, v => if v = 0 then [] else [(a, v)]
  | (b, w) :: rest, a, v =>
    if a < b then (if v = 0 then (b, w) :: rest else (a, v) :: (b, w) :: rest)
    else if a = b then (if v = 0 then rest else (a, v) :: rest)
    else (b, w) :: writeCells rest a v

/-- Addresses strictly rising and above `lo`, no cell holding 0. -/
def cellsFrom (lo : Nat) : List MemCell → Bool
  | [] => true
  | (b, w) :: rest => decide (lo ≤ b) && decide (w ≠ 0) && cellsFrom (b + 1) rest

/-- The canonical form of memory: equal memories are equal lists. -/
def Memory.wf (m : Memory) : Bool := cellsFrom 0 m.cells

/-- `Phys[pa]` on the array (R60). -/
def Memory.read (m : Memory) (a : Nat) : Word := readCells m.cells a

/-- `Phys[pa] <- v` on the array: only the addressed word changes (R60). -/
def Memory.write (m : Memory) (a : Nat) (v : Word) : Memory := { cells := writeCells m.cells a v }

/-- Every listed address is below `n`. -/
def Memory.within (m : Memory) (n : Nat) : Bool := m.cells.all fun c => decide (c.1 < n)

/-- The memory port's get (R60). Its users have checked the address (R61). -/
def State.phys (s : State) (pa : Nat) : Word := s.mem.read pa

/-- The memory port's set (R60). Its users have checked the address (R61). -/
def State.setPhys (s : State) (pa : Nat) (v : Word) : State := { s with mem := s.mem.write pa v }

/-! ### The configuration -/

/-- `P0`: the largest power of two at most `PAGE_SIZE_CFG` (R70). -/
def configuredPage (c : Config) : Nat := 2 ^ Nat.log2 c.pageSizeCfg

/-- `M0`: the smallest power of two at least `MIN_PAGE_SIZE` (R70). -/
def minimumPage (c : Config) : Nat :=
  let p := 2 ^ Nat.log2 c.minPageSize
  if p < c.minPageSize then 2 * p else p

/-- `PAGE_SIZE` = max(`P0`, `M0`) (R70). -/
def pageSize (c : Config) : Nat := max (configuredPage c) (minimumPage c)

/-- `OFFSET_BITS` = log2(`PAGE_SIZE`) (R70). -/
def offsetBits (c : Config) : Nat := Nat.log2 (pageSize c)

/-- `OFFSET_MASK` = `PAGE_SIZE` - 1 (R70). -/
def offsetMask (c : Config) : Nat := pageSize c - 1

/-- The decided default of `NUM_VPAGES`: `MEM_SIZE` >> `OFFSET_BITS`, at least 1 (R9, D28). -/
def defaultNumVPages (c : Config) : Nat := max 1 (c.memSize >>> offsetBits c)

/-- The conditions on the parameters that only paged mode reads (R9, R70). -/
def pagedConfigOk (c : Config) : Bool :=
  decide (1 ≤ c.pageSizeCfg) && decide (1 ≤ c.minPageSize) && decide (offsetBits c ≤ c.xlen - 2) &&
    decide (1 ≤ c.pteStatusBits) && decide (c.pteStatusBits < c.xlen) && decide (1 ≤ c.numVPages)

/-- The parameters are a configuration of the block (R9, R70; U17): the opcodes and the greatest register index are words of
the width (R103, R104; DEDUCED, log 2). The paged-mode parameters count in paged mode only (DESIGN CHOICE, log 10). -/
def configOk (c : Config) : Bool :=
  decide (1 ≤ c.memSize) && decide (c.memSize ≤ 2 ^ (c.xlen - 1)) && decide (1 ≤ c.clockPeriod) && c.opc.injective &&
    c.opc.fits c.xlen && isWord c.xlen 8 && c.regnum.bijective &&
    (match c.mode with
    | .segment => true
    | .paged => pagedConfigOk c)

/-! ### The translator -/

/-- `Translate_segment(va)` on unbounded integers (R68). `none` is the raise of `IllegalMemoryAccess(va)`. -/
def State.translateSegment (s : State) (va : Int) : Option Nat :=
  let pa := s.reg .base + va
  if s.reg .base ≤ pa ∧ pa ≤ s.reg .lim then
    if 0 ≤ pa ∧ pa < s.cfg.memSize then some pa.toNat else none
  else none

/-- The frame number of a page-table entry: its bits from `PTE_STATUS_BITS` up (R71). -/
def pteFrame (c : Config) (e : Nat) : Nat := e >>> c.pteStatusBits

/-- The validity bit of a page-table entry, bit 0 (R71). The other status bits mean nothing to the block. -/
def pteValid (e : Nat) : Bool := decide (e &&& 1 = 1)

/-- `Translate_paged(va)` (R72): every walk reads the entry from memory anew (R73). -/
def State.translatePaged (s : State) (va : Int) : Option Nat :=
  if va < 0 then none
  else
    let page := va.toNat >>> offsetBits s.cfg
    if s.cfg.numVPages ≤ page ∨ s.cfg.memSize ≤ page then none
    else
      let e := uval s.cfg.xlen (s.phys page)
      if pteValid e then
        let pa := (pteFrame s.cfg e <<< offsetBits s.cfg) ||| (va.toNat &&& offsetMask s.cfg)
        if pa < s.cfg.memSize then some pa else none
      else none

/-- `Translate(va)`: the physical address, or `none` where it raises `IllegalMemoryAccess(va)` (R67). It changes nothing. -/
def State.translate (s : State) (va : Int) : Option Nat :=
  match s.cfg.mode with
  | .segment => s.translateSegment va
  | .paged => s.translatePaged va

/-! ### The access primitives (R76) -/

/-- `MemRead(va, 1)`; `none` is its raise. -/
def State.memRead (s : State) (va : Int) : Option Word := (s.translate va).map s.phys

/-- `MemWrite(va, 1, v)`; `none` is its raise, with nothing written. -/
def State.memWrite (s : State) (va : Int) (v : Word) : Option State := (s.translate va).map fun pa => s.setPhys pa v

/-- `MemRead(va, 4)`: the first word is translated, the next three are the next three physical words, checked against the
end of memory only (R76, R77). -/
def State.fetchAt (s : State) (va : Int) : Option Tuple :=
  match s.translate va with
  | some pa =>
    if pa + 3 < s.cfg.memSize then some ⟨s.phys pa, s.phys (pa + 1), s.phys (pa + 2), s.phys (pa + 3)⟩ else none
  | none => none

/-! ### Taking a trap -/

/-- What the kernel sees at a call (R226). -/
def State.view (s : State) : KernelView := { regs := s.regs, mem := s.mem, ticks := s.ticks }

/-- The kernel's answer to a call, and the environment after it: the next scripted answer where one is left, else the free
value `Config.kernel` (R226; log 4). -/
def State.kernelReply (s : State) (c : TrapCall) : KernelAnswer × Env :=
  match s.env.answers with
  | a :: rest => (a, { s.env with answers := rest })
  | [] =>
    let r := Config.kernel s.env.kappa c s.view
    (r.1, { s.env with kappa := r.2 })

/-- The kernel's register writes, in order (R228). What is written is a word of the width (DESIGN CHOICE,
log 13). -/
def applyRegWrites (xlen : Nat) (x : Regs) (ws : List (Reg × Word)) : Regs :=
  ws.foldl (fun y w => y.set w.1 (wrap xlen w.2)) x

/-- The kernel's memory writes, in order. A write outside 0 .. `MEM_SIZE`-1 is not part of any answer: it reaches no word
(R61, R228; U13; log 5). What is written is a word of the width (DESIGN CHOICE, log 13). -/
def applyMemWrites (xlen n : Nat) (m : Memory) (ws : List MemCell) : Memory :=
  ws.foldl (fun k w => if w.1 < n then k.write w.1 (wrap xlen w.2) else k) m

/-- One call of the trap port: it leaves the port (R232), the kernel answers, and the registers, the memory and the tick
counter are what the handler left (R226, R228). The block itself saves and changes nothing (R229). -/
def State.kernelCall (s : State) (c : TrapCall) : KernelAnswer × State :=
  let r := s.kernelReply c
  (r.1,
    { s with
      regs := applyRegWrites s.cfg.xlen s.regs r.1.regs
      mem := applyMemWrites s.cfg.xlen s.cfg.memSize s.mem r.1.mem
      ticks := s.ticks + r.1.addTicks
      env := { r.2 with log := { call := c, pc := s.regs.pc, ticks := s.ticks } :: s.env.log } })

/-- `Trap(kind, info)` in sub-steps (b), (d) and (e), with what the engine does with the response: `HALT` sets `halted`, and
otherwise `HOLD_PC` sets `pc_hold`, which nothing clears before the next cycle (R198, R199, R227). -/
def State.trap (s : State) (c : TrapCall) : State :=
  let r := s.kernelCall c
  if r.1.halt then { r.2 with halted := true }
  else if r.1.holdPc then { r.2 with pcHold := true }
  else r.2

/-- `Trap(kind, info)` in sub-step (a): a `HOLD_PC` answer is ignored (R191). -/
def State.trapBeforeFetch (s : State) (c : TrapCall) : State :=
  let r := s.kernelCall c
  if r.1.halt then { r.2 with halted := true } else r.2

/-- `raise Kind(info)` of an instruction: it is abandoned with nothing written, and the engine calls `Trap(Kind, info)` once
(R194, R224). The return from the trap is this operation's return (R230). -/
def State.raise (s : State) (c : TrapCall) : Result := .next (s.trap c)

/-- The one word that `IllegalMemoryAccess(va)` carries (R78, R220): `va` itself, and a free value where the integer `va` is no
word (log 11). -/
def faultWord (xlen : Nat) (va : Int) : Word := if isWord xlen va then va else wrap xlen (Config.wideAddress va)

/-- `raise IllegalMemoryAccess(va)` where `va` is a word of the state: PC, an operand or a register (R78, R221). -/
def State.raiseMemory (s : State) (va : Word) : Result := s.raise (.illegalMemoryAccess va)

/-- `raise IllegalMemoryAccess(StackVA(k))`, where `va` is an integer that may fit no word (R160, R221; log 11). -/
def State.raiseStack (s : State) (va : Int) : Result := s.raiseMemory (faultWord s.cfg.xlen va)

/-! ### Reset -/

/-- The reset line (R280): the block's state takes the values of R35; the configuration and the kernel stay. -/
def State.onReset (s : State) : State := .resetWith s.cfg s.env

end Sys2Proof.Machine
end

