-- ==== Sys2Proof/Machine/Operands.lean ====
section
/-! DEFINITION. The operand forms: a register field (30_encoding.md R104, R105), and the virtual address of a stack slot
(42_stack.md R160). Immediates and addresses are words used as they stand (R106), and LOAD and SAVE take their address
from a register (43_load_store.md R170), so they need no operation here. -/

namespace Sys2Proof.Machine

/-- The register whose index under `REGNUM` is the word (R21, R105). -/
def registerAt (m : RegMap) (w : Word) : Option Reg := Reg.all.find? fun r => (m.index r : Int) == w

/-- `Reg(w)`; `none` is its raise of `IllegalInstruction` (R105). -/
def State.regField (s : State) (w : Word) : Option Reg := registerAt s.cfg.regnum w

/-- `d <- Reg(w)`, and the rest of the instruction with `d`; a word outside 0..8 raises `IllegalInstruction` before any other
effect (R105, R113). -/
def State.withReg (s : State) (w : Word) (rest : Reg → Result) : Result :=
  match s.regField w with
  | some r => rest r
  | none => s.raise .illegalInstruction

/-- `StackVA(k)` = (LIM - BASE) - `k` on unbounded integers (R160). -/
def State.stackVa (s : State) (k : Int) : Int := (s.reg .lim - s.reg .base) - k

end Sys2Proof.Machine
end

