-- ==== Sys2Proof/Machine/Arith.lean ====
section
/-! DEFINITION. SET, ADD, SUB, MUL, DIV and COPY (40_arith_move.md). Register fields are looked at first, in the order `w1`,
`w2`, `w3`, sources are read before the destination is written, and no flag exists (R136). -/

namespace Sys2Proof.Machine

/-- `sdiv(a, b)`: the quotient rounded toward zero, for `b` other than 0 (R137). -/
def sdiv (a b : Int) : Int := a.sign * b.sign * ((a.natAbs / b.natAbs : Nat) : Int)

/-- The shared form of ADD, SUB and MUL (R131 to R133): the exact result of the signed readings, wrapped to a word (R138). -/
def State.arith (s : State) (op : Int → Int → Int) (rd rs1 rs2 : Word) : Result :=
  s.withReg rd fun d => s.withReg rs1 fun a => s.withReg rs2 fun b =>
    .next (s.setReg d (wrap s.cfg.xlen (op (s.reg a) (s.reg b))))

/-- SET rd, imm (R130). -/
def execSet (rd imm : Word) (s : State) : Result := s.withReg rd fun d => .next (s.setReg d imm)

/-- ADD rd, rs1, rs2 (R131). -/
def execAdd (rd rs1 rs2 : Word) (s : State) : Result := s.arith (fun a b => a + b) rd rs1 rs2

/-- SUB rd, rs1, rs2 (R132). -/
def execSub (rd rs1 rs2 : Word) (s : State) : Result := s.arith (fun a b => a - b) rd rs1 rs2

/-- MUL rd, rs1, rs2 (R133). -/
def execMul (rd rs1 rs2 : Word) (s : State) : Result := s.arith (fun a b => a * b) rd rs1 rs2

/-- DIV rd, rs1, rs2 (R134): a divisor of 0 raises `DivideByZero` with nothing written. -/
def execDiv (rd rs1 rs2 : Word) (s : State) : Result :=
  s.withReg rd fun d => s.withReg rs1 fun a => s.withReg rs2 fun b =>
    if s.reg b = 0 then s.raise .divideByZero
    else .next (s.setReg d (wrap s.cfg.xlen (sdiv (s.reg a) (s.reg b))))

/-- COPY rd, rs (R135). -/
def execCopy (rd rs : Word) (s : State) : Result :=
  s.withReg rd fun d => s.withReg rs fun a => .next (s.setReg d (s.reg a))

end Sys2Proof.Machine
end

