-- ==== Sys2Proof/Machine/Flags.lean ====
section
/-! DEFINITION. The block has no flags (10_state.md R28): no instruction records a carry, an overflow, a zero or a sign. What
stands in their place is here, the comparisons that BNE, BLT and POP make on registers as they execute. -/

namespace Sys2Proof.Machine

/-- BNE's condition: the two words differ in some bit (41_branch.md R152). -/
def State.differ (s : State) (a b : Reg) : Bool := decide (s.reg a ≠ s.reg b)

/-- BLT's condition: `x[a] <s x[b]`, on the signed readings (41_branch.md R153). -/
def State.less (s : State) (a b : Reg) : Bool := decide (s.reg a < s.reg b)

/-- POP's guard: `x[SP] <=s 0`, before the decrement (42_stack.md R162). -/
def State.stackEmpty (s : State) : Bool := decide (s.reg .sp ≤ 0)

end Sys2Proof.Machine
end

