-- ==== Sys2Proof/Machine/Branch.lean ====
section
/-! DEFINITION. BRANCH, BNE and BLT (41_branch.md). -/

namespace Sys2Proof.Machine

/-- `TakeBranch(addr)` (R150): the target is validated through the translator, then PC receives `addr` itself and `pc_hold`
is set. A failed validation writes neither and raises `IllegalMemoryAccess(addr)`. -/
def State.takeBranch (s : State) (addr : Word) : Result :=
  match s.translate addr with
  | some _ => .next { s.setReg .pc addr with pcHold := true }
  | none => s.raiseMemory addr

/-- BRANCH addr (R151). -/
def execBranch (addr : Word) (s : State) : Result := s.takeBranch addr

/-- BNE ra, rb, addr (R152): an untaken branch does nothing and validates nothing. -/
def execBne (ra rb addr : Word) (s : State) : Result :=
  s.withReg ra fun a => s.withReg rb fun b => if s.differ a b then s.takeBranch addr else .next s

/-- BLT ra, rb, addr (R153). -/
def execBlt (ra rb addr : Word) (s : State) : Result :=
  s.withReg ra fun a => s.withReg rb fun b => if s.less a b then s.takeBranch addr else .next s

end Sys2Proof.Machine
end

