-- ==== Sys2Proof/Machine/LoadStore.lean ====
section
/-! DEFINITION. LOAD and SAVE (43_load_store.md): one addressing mode, the virtual address in the register that the second
operand names (R170), checked like a branch target (R173). -/

namespace Sys2Proof.Machine

/-- LOAD rd, ra (R171). -/
def execLoad (rd ra : Word) (s : State) : Result :=
  s.withReg rd fun d => s.withReg ra fun a =>
    match s.memRead (s.reg a) with
    | some v => .next (s.setReg d v)
    | none => s.raiseMemory (s.reg a)

/-- SAVE rs, ra (R172). -/
def execSave (rs ra : Word) (s : State) : Result :=
  s.withReg rs fun d => s.withReg ra fun a =>
    match s.memWrite (s.reg a) (s.reg d) with
    | some t => .next t
    | none => s.raiseMemory (s.reg a)

end Sys2Proof.Machine
end

