-- ==== Sys2Proof/Machine/Stack.lean ====
section
/-! DEFINITION. PUSH and POP (42_stack.md). SP counts the words on the stack (10_state.md R25). -/

namespace Sys2Proof.Machine

/-- POP r (R162): nothing at all when SP <= 0; else the slot `StackVA(SP - 1)` is read, SP is decremented, and the
destination is written last, so that POP SP leaves the popped word. -/
def execPop (r : Word) (s : State) : Result :=
  s.withReg r fun d =>
    if s.stackEmpty then .next s
    else
      let sp1 := s.reg .sp - 1
      match s.memRead (s.stackVa sp1) with
      | some v => .next ((s.setReg .sp sp1).setReg d v)
      | none => s.raiseStack (s.stackVa sp1)

/-- PUSH r (R161): the word is read before SP changes, written at `StackVA(SP)`, and SP is incremented, wrapping. -/
def execPush (r : Word) (s : State) : Result :=
  s.withReg r fun d =>
    match s.memWrite (s.stackVa (s.reg .sp)) (s.reg d) with
    | some t => .next (t.setReg .sp (wrap s.cfg.xlen (t.reg .sp + 1)))
    | none => s.raiseStack (s.stackVa (s.reg .sp))

end Sys2Proof.Machine
end

