-- ==== Sys2Proof/Machine/System.lean ====
section
/-! DEFINITION. TRAP (44_trap.md R180), the one system instruction (60_exceptions.md R233). -/

namespace Sys2Proof.Machine

/-- TRAP (R180): raises `SystemCall()`, with no payload; the engine itself pops nothing and writes nothing. -/
def execTrap (s : State) : Result := s.raise .systemCall

end Sys2Proof.Machine
end

