-- ==== Sys2Proof/Machine/Dispatch.lean ====
section
/-! DEFINITION. Sub-step (d) for the fourteen instructions (50_engine_cycle.md R194): one arm for each, one meaning for each. -/

namespace Sys2Proof.Machine

def exec (i : Instr) (s : State) : Host.Outcome State Fault Refusal :=
  match i with
  | .set rd imm => Sys2Proof.Machine.execSet rd imm s
  | .add rd rs1 rs2 => Sys2Proof.Machine.execAdd rd rs1 rs2 s
  | .sub rd rs1 rs2 => Sys2Proof.Machine.execSub rd rs1 rs2 s
  | .mul rd rs1 rs2 => Sys2Proof.Machine.execMul rd rs1 rs2 s
  | .div rd rs1 rs2 => Sys2Proof.Machine.execDiv rd rs1 rs2 s
  | .copy rd rs => Sys2Proof.Machine.execCopy rd rs s
  | .branch addr => Sys2Proof.Machine.execBranch addr s
  | .bne ra rb addr => Sys2Proof.Machine.execBne ra rb addr s
  | .blt ra rb addr => Sys2Proof.Machine.execBlt ra rb addr s
  | .pop r => Sys2Proof.Machine.execPop r s
  | .push r => Sys2Proof.Machine.execPush r s
  | .load rd ra => Sys2Proof.Machine.execLoad rd ra s
  | .save rs ra => Sys2Proof.Machine.execSave rs ra s
  | .trap => Sys2Proof.Machine.execTrap s

end Sys2Proof.Machine
end

