-- ==== Sys2Proof/Machine/Mailbox.lean ====
section
/-! DEFINITION. The interrupt mailbox (60_exceptions.md R240 to R247): the producer operation `post`, the consumer operation
`tryTake`, the engine's poll (50_engine_cycle.md R191), and the turn in which the device agents act, beside the engine's sub-steps. -/

namespace Sys2Proof.Machine

/-- `post(ev)`: one atomic action, enabled exactly when the slot is empty; `none` is a blocked producer (R242). -/
def State.post (s : State) (ev : InterruptEvent) : Option State :=
  match s.mbox with
  | none => some { s with mbox := some ev }
  | some _ => none

/-- `tryTake()`: the event if there is one, and the slot empty (R243). -/
def State.tryTake (s : State) : Option InterruptEvent × State := (s.mbox, { s with mbox := none })

/-- The call an event becomes, its three words passed through unchanged (R191, R247). -/
def InterruptEvent.call (ev : InterruptEvent) : TrapCall :=
  match ev.kind with
  | .readComplete => .ioReadComplete ev.dev ev.addr ev.data
  | .writeComplete => .ioWriteComplete ev.dev ev.addr ev.data

/-- Sub-step (a): one `tryTake`, and one call of the kernel for the event it returns (R191). -/
def State.poll (s : State) : State :=
  match s.tryTake with
  | (none, t) => t
  | (some ev, t) => t.trapBeforeFetch ev.call

/-- One turn of the device agents: the next entry of the schedule. A post into the empty slot completes; a post
that finds the slot full stays, blocked; an entry `none` passes (R242, R245; log 7). -/
def State.deviceTurn (s : State) : State :=
  match s.env.posts with
  | [] => s
  | none :: rest => { s with env := { s.env with posts := rest } }
  | some ev :: rest =>
    match s.post ev with
    | some t => { t with env := { t.env with posts := rest } }
    | none => s

/-- The schedule holds a move that the device agents can make now. -/
def State.deviceCanMove (s : State) : Bool :=
  match s.env.posts with
  | [] => false
  | none :: _ => true
  | some _ :: _ => s.mbox.isNone

end Sys2Proof.Machine
end

