-- ==== Sys2Proof/Machine/Cycle.lean ====
section
/-! DEFINITION. The instruction cycle (50_engine_cycle.md): sub-steps (b) to (f) as operations, and the cycle in full
(R203). -/

namespace Sys2Proof.Machine

/-- `pc_hold <- clear`, the start of sub-step (b) (R192). -/
def State.clearHold (s : State) : State := { s with pcHold := false }

/-- Sub-step (b), the fetch at PC (R192); `none` is its raise of `IllegalMemoryAccess(x[PC])`. -/
def State.fetch (s : State) : Option Tuple := s.fetchAt (s.reg .pc)

/-- Sub-steps (b), (c) and (d) (R192 to R194): a fetch fault skips decode and execute; a tuple that is no instruction raises
`IllegalInstruction` with no other effect (44_trap.md R181); an instruction runs its own meaning. -/
def State.fetchExecute (s : State) : Result :=
  match s.fetch with
  | none => s.raiseMemory (s.reg .pc)
  | some t =>
    match decode s.cfg.opc t with
    | .error (.unknownOpcode _) => s.raise .illegalInstruction
    | .ok i => exec i s

/-- `ticks <- ticks + 1` (R196). -/
def State.countTick (s : State) : State := { s with ticks := s.ticks + 1 }

/-- The count just made is a multiple of `CLOCK_PERIOD` (R196, R248). -/
def State.clockDue (s : State) : Bool := decide (s.ticks % s.cfg.clockPeriod = 0)

/-- Sub-step (e): count the cycle, and call the clock handler when the new count is a multiple of `CLOCK_PERIOD`; the test is
made once (R196). -/
def State.tick (s : State) : State := if s.countTick.clockDue then s.countTick.trap .clock else s.countTick

/-- Sub-step (f): PC moves past the instruction's four words unless `pc_hold` is set (R197). -/
def State.advance (s : State) : State :=
  if s.pcHold then s else s.setReg .pc (wrap s.cfg.xlen (s.reg .pc + 4))

/-- Sub-steps (e) and (f), each performed unless a `HALT` answer has ended the cycle before it (R199, R203). -/
def State.finish (s : State) : State :=
  if s.halted then s
  else if s.tick.halted then s.tick
  else s.tick.advance

/-- One cycle from sub-step (a) on (R203), for an engine that is not halted. The device agents have a turn after the take too: a
post may complete at any moment of a cycle, while a handler runs as well (00_scope.md R4; 60_exceptions.md R231), and because
nothing after the take looks at the slot (R243), one turn there stands for every later moment (log 7). -/
def cycle (s : State) : Result :=
  let a := s.poll.deviceTurn
  if a.halted then .next a
  else
    match a.clearHold.fetchExecute with
    | .next d => .next d.finish
    | .fault r => .fault r
    | .refused r => .refused r

/-- One step of the machine: the device agents' turn before the poll (log 7), then, while `halted` is clear, one cycle of the
engine (R190). A halted engine performs nothing while device agents may still post (R200); when they cannot move either, the
machine has stopped (log 9). A state whose parameters are no configuration of the block has no step (log 10). -/
def machineStep (s : State) : Result :=
  if configOk s.cfg then
    if s.halted then (if s.deviceCanMove then .next s.deviceTurn else .fault .engineHalted)
    else cycle s.deviceTurn
  else .refused .notAConfiguration

/-- The tuple at a physical address: its four words lie at ascending addresses, opcode lowest (R62, R101). -/
def State.placeTuple (s : State) (pa : Nat) (t : Tuple) : State :=
  (((s.setPhys pa t.w0).setPhys (pa + 1) t.w1).setPhys (pa + 2) t.w2).setPhys (pa + 3) t.w3

/-- No event reaches the engine in the next cycle: the slot is empty, and a post that would complete before the poll waits for the
turn after it. -/
def State.quietNext (s : State) : State :=
  { s with
    mbox := none
    env := { s.env with
      posts := match s.env.posts with
        | some ev :: rest => none :: some ev :: rest
        | ps => ps } }

/-- PC moved to where a fetch succeeds whatever the registers and the table held: PC 0, in segment mode in the window 0..3,
in paged mode on a page mapped to frame 1, which lies clear of its own table entry. -/
def State.fetchable (s : State) : State :=
  match s.cfg.mode with
  | .segment => ((s.setReg .pc 0).setReg .base 0).setReg .lim 3
  | .paged => (s.setReg .pc 0).setPhys 0 (wrap s.cfg.xlen ((2 ^ s.cfg.pteStatusBits + 1 : Nat) : Int))

/-- The tuple stored at the translated address of PC, where there is one. -/
def State.placeAtPc (s : State) (t : Tuple) : State :=
  match s.translate (s.reg .pc) with
  | some pa => s.placeTuple pa t
  | none => s

/-- The tuple stored where the next cycle fetches (log 12): at PC where that works, and else at a PC that can be fetched. -/
def State.placeAtFetch (s : State) (t : Tuple) : State :=
  let a := { s.quietNext with halted := false }
  let b := a.placeAtPc t
  if b.fetch = some t then b else a.fetchable.placeAtPc t

end Sys2Proof.Machine
end

