-- ==== Sys2Proof/Machine/Step.lean ====
section
/-! DEFINITION. The step of the machine and the placing of a fetched word; both are written out in Machine/Cycle.lean. -/

namespace Sys2Proof.Machine

/-- One step: the device agents' turn and one cycle of the engine (50_engine_cycle.md R190, R203). -/
def step (s : State) : Host.Outcome State Fault Refusal := machineStep s

/-- The state with an instruction stored where `step` fetches next, its bits numbered as the opcode table numbers them,
in words of the block's own width (30_encoding.md R101; log 12). -/
def State.withFetchWord (s : State) (nbits w : Nat) : State := s.placeAtFetch (Tuple.ofTableWord s.cfg.xlen nbits w)

end Sys2Proof.Machine
end

