-- ==== Sys2Proof/Machine/RunLoop.lean ====
section
/-! DEFINITION. The run loop `while not halted: step()` (50_engine_cycle.md R202), under fuel (decision D37), and the end of a
run (R204). -/

namespace Sys2Proof.Machine

/-- The run loop with fuel for `n` cycles (R202): it performs a step while `halted` is clear, goes on after every fault, and
performs nothing once `halted` is set, whatever fuel is left and whatever the device agents could still post. -/
def runLoop : Nat → State → Result
  | 0, s => .next s
  | n + 1, s =>
    if s.halted then .next s
    else
      match step s with
      | .next t => runLoop n t
      | .fault r => .fault r
      | .refused r => .refused r

/-- The run from `s` ends in `e` (R204): `e` is the first state of the run in which `halted` is set. -/
def runEndsIn (s e : State) : Prop := ∃ n, runLoop n s = .next e ∧ e.halted = true

end Sys2Proof.Machine
end

