-- ==== Sys2Proof/Safety.lean ====
section
/-! DEFINITION. The terms claims are stated in: what a state keeps (the invariant), what a transition leaves alone (the
frames), and which calls of the trap port belong to which sub-step. -/

namespace Sys2Proof.Machine

/-- The three words of an event are words of the width (10_state.md R30). -/
def InterruptEvent.fits (xlen : Nat) (ev : InterruptEvent) : Bool :=
  isWord xlen ev.dev && isWord xlen ev.addr && isWord xlen ev.data

/-- Every register holds a word of the width (R20). -/
def Regs.fits (xlen : Nat) (x : Regs) : Bool := Reg.all.all fun r => isWord xlen (x.get r)

/-- Every word listed is a word of the width (R33). -/
def Memory.fits (xlen : Nat) (m : Memory) : Bool := m.cells.all fun c => isWord xlen c.2

/-- Every word that the block holds, and every word that a device agent is to post, is a word of the block's width (R20, R30,
R33). -/
def State.wordsFit (s : State) : Bool :=
  s.regs.fits s.cfg.xlen && s.mem.fits s.cfg.xlen && s.mbox.all (InterruptEvent.fits s.cfg.xlen) &&
    s.env.posts.all fun p => p.all (InterruptEvent.fits s.cfg.xlen)

/-- The invariant of the machine: the parameters are a configuration of the block, memory has its canonical form, no
word outside 0 .. `MEM_SIZE`-1 holds anything (10_state.md R33), and every word is one of the block's width (R20). -/
structure State.Inv (s : State) : Prop where
  config : configOk s.cfg = true
  canonical : s.mem.wf = true
  inArray : s.mem.within s.cfg.memSize = true
  words : s.wordsFit = true

/-- No register changed but those listed. -/
def sameRegsBut (ds : List Reg) (s t : State) : Prop := ∀ r, r ∉ ds → t.reg r = s.reg r

/-- No word of memory changed. -/
def sameMem (s t : State) : Prop := ∀ a, t.mem.read a = s.mem.read a

/-- No word of memory changed but the one at `pa`. -/
def sameMemBut (pa : Nat) (s t : State) : Prop := ∀ a, a ≠ pa → t.mem.read a = s.mem.read a

/-- Nothing outside the registers, the memory and `pc_hold` changed: neither `ticks`, `mbox`, `halted`, the configuration nor
the environment, so that no call left the trap port either (60_exceptions.md R253). -/
def sameControl (s t : State) : Prop :=
  t.ticks = s.ticks ∧ t.mbox = s.mbox ∧ t.halted = s.halted ∧ t.cfg = s.cfg ∧ t.env = s.env

/-- Nothing changed but the registers listed. -/
def regsOnly (ds : List Reg) (s t : State) : Prop :=
  sameRegsBut ds s t ∧ sameMem s t ∧ sameControl s t ∧ t.pcHold = s.pcHold

/-- Nothing changed but the registers listed and the word at `pa`. -/
def storeOnly (ds : List Reg) (pa : Nat) (s t : State) : Prop :=
  sameRegsBut ds s t ∧ sameMemBut pa s t ∧ sameControl s t ∧ t.pcHold = s.pcHold

/-- What a call of the kernel with the answer `k` leaves of registers, memory and ticks (60_exceptions.md R226, R228): every
register and every word of the array holds the word that the answer wrote there last, or its old word, and the ticks are
added. -/
def answerWritten (k : KernelAnswer) (s t : State) : Prop :=
  (∀ r, t.reg r = ((k.regs.reverse.find? fun w => w.1 == r).map fun w => wrap s.cfg.xlen w.2).getD (s.reg r)) ∧
  (∀ pa, pa < s.cfg.memSize →
    t.phys pa = ((k.mem.reverse.find? fun w => w.1 == pa).map fun w => wrap s.cfg.xlen w.2).getD (s.phys pa)) ∧
  t.ticks = s.ticks + k.addTicks

/-- What follows a plain register write of `v` to PC (10_state.md R24, R197): with `pc_hold` clear, no halt and no clock call due,
sub-step (f) leaves PC at `v` + 4. -/
def plainPcWrite (t : State) (v : Int) : Prop :=
  t.halted = false → t.pcHold = false → (t.ticks + 1) % t.cfg.clockPeriod ≠ 0 → t.finish.reg .pc = wrap t.cfg.xlen (v + 4)

/-- The kinds that an instruction or its fetch raises, in sub-steps (b) and (d) (60_exceptions.md R220). -/
def TrapCall.synchronous : TrapCall → Bool
  | .illegalMemoryAccess _ => true
  | .divideByZero => true
  | .illegalInstruction => true
  | .systemCall => true
  | .clock => false
  | .ioReadComplete .. => false
  | .ioWriteComplete .. => false

/-- The kinds of sub-step (a) (R220). -/
def TrapCall.completion : TrapCall → Bool
  | .illegalMemoryAccess _ => false
  | .divideByZero => false
  | .illegalInstruction => false
  | .systemCall => false
  | .clock => false
  | .ioReadComplete .. => true
  | .ioWriteComplete .. => true

/-- The code that labels a trap kind (R220). No register holds it. -/
def TrapCall.code : TrapCall → Nat
  | .illegalMemoryAccess _ => 0
  | .divideByZero => 1
  | .illegalInstruction => 2
  | .systemCall => 3
  | .clock => 4
  | .ioReadComplete .. => 5
  | .ioWriteComplete .. => 6

/-- The record a call leaves in the log of the trap port. -/
def State.recordOf (s : State) (c : TrapCall) : TrapRecord := { call := c, pc := s.reg .pc, ticks := s.ticks }

/-- How many of `w1`, `w2`, `w3` the format of a mnemonic uses, from `w1` on (30_encoding.md R102). -/
def usedWords : Opcode → Nat
  | .set => 2
  | .add => 3
  | .sub => 3
  | .mul => 3
  | .div => 3
  | .copy => 2
  | .branch => 1
  | .bne => 3
  | .blt => 3
  | .pop => 1
  | .push => 1
  | .load => 2
  | .save => 2
  | .trap => 0

/-- The state that sub-step (b) of the next cycle starts from, `pc_hold` clear: after the poll and the device agents' turns on
either side of it. -/
def State.atFetch (s : State) : State := s.deviceTurn.poll.deviceTurn.clearHold

/-- The same state with another content of the slot and other posts still to come. -/
def State.withSlot (s : State) (m : Option InterruptEvent) (ps : List (Option InterruptEvent)) : State :=
  { s with mbox := m, env := { s.env with posts := ps } }

/-- A cycle of the engine begins and reaches its fetch: the configuration is one of the block, `halted` is clear, and no
`HALT` answer ends the cycle at the poll (50_engine_cycle.md R190, R199). -/
def State.reachesFetch (s : State) : Prop :=
  configOk s.cfg = true ∧ s.halted = false ∧ s.deviceTurn.poll.halted = false

end Sys2Proof.Machine
end

