-- ==== Sys2Proof/Certificates/Slice0/Obligations.lean ====
section
/-! DEFINITION. The statements of this row, each with the rule of spec/ it comes from. OBLIGATIONS.json lists them. -/

open Sys2Proof Sys2Proof.Machine

/-! ### Encoding and decoding -/

/-- One word of each of the fourteen opcodes, written out from 30_encoding.md R103 and the examples of 95_test_vectors.md
(V1, V5, V8, V10, V15, V12, V26, V30, V35, V46, V40, V52, V53, V59d), decodes to the instruction it stands for; 14, the first
word past the enumeration, and -1 decode to none (decisions D3, D6, D33; log 16). -/
def Obligations.TableWordsDecode : Prop :=
  decode .standard ⟨0, 0, 5, 0⟩ = .ok (.set 0 5) ∧
  decode .standard ⟨1, 2, 0, 1⟩ = .ok (.add 2 0 1) ∧
  decode .standard ⟨2, 2, 0, 1⟩ = .ok (.sub 2 0 1) ∧
  decode .standard ⟨3, 2, 0, 1⟩ = .ok (.mul 2 0 1) ∧
  decode .standard ⟨4, 2, 0, 1⟩ = .ok (.div 2 0 1) ∧
  decode .standard ⟨5, 1, 0, 0⟩ = .ok (.copy 1 0) ∧
  decode .standard ⟨6, 16, 0, 0⟩ = .ok (.branch 16) ∧
  decode .standard ⟨7, 0, 1, 16⟩ = .ok (.bne 0 1 16) ∧
  decode .standard ⟨8, 1, 2, 16⟩ = .ok (.blt 1 2 16) ∧
  decode .standard ⟨9, 3, 0, 0⟩ = .ok (.pop 3) ∧
  decode .standard ⟨10, 0, 0, 0⟩ = .ok (.push 0) ∧
  decode .standard ⟨11, 2, 1, 0⟩ = .ok (.load 2 1) ∧
  decode .standard ⟨12, 0, 1, 0⟩ = .ok (.save 0 1) ∧
  decode .standard ⟨13, 99, -5, 7⟩ = .ok .trap ∧
  decode .standard ⟨14, 0, 0, 0⟩ = .error (.unknownOpcode 14) ∧
  decode .standard ⟨-1, 0, 0, 0⟩ = .error (.unknownOpcode (-1))

/-- Decoding the 4 times `XLEN` bits (128 by default) that the encoder's words make gives the instruction back, for every width,
every instruction that fits it, its register fields good or not, with every operand at every word, and every injective opcode
numbering that fits it (R101 to R103, R113; decisions D1, D6, D33; log 16). -/
def Obligations.DecodeOfEncodeIsIdentity : Prop :=
  ∀ (xlen : Nat) (m : OpcMap), m.injective = true → m.fits xlen = true → ∀ i : Instr, i.fits xlen = true →
    decode m (Tuple.ofTableWord xlen (4 * xlen) ((encode m i).value xlen)) = .ok i

/-- Every tuple decodes to exactly one of the instructions whose opcode word it carries, with the operands its words hold, or
to none when it carries no opcode word (R108, R113) (decisions D6, D36; log 16). -/
def Obligations.DecodeIsTheClosedEnumeration : Prop :=
  ∀ m : OpcMap, m.injective = true → ∀ t : Tuple,
    (∀ i, decode m t = .ok i ↔ m.word i.opcode = t.w0 ∧ i = i.opcode.operands t) ∧
    ((∃ r, decode m t = .error r) ↔ ∀ o, m.word o ≠ t.w0)

/-- Words that a format marks unused are ignored: two tuples that agree on the opcode and on the words the format uses decode
to the same; and the encoder writes 0 into every unused word (R107; decision D6; log 16). -/
def Obligations.UnusedWordsAreIgnored : Prop :=
  (∀ (m : OpcMap) (o : Opcode) (t u : Tuple), m.injective = true → t.w0 = m.word o → u.w0 = t.w0 →
    (1 ≤ usedWords o → u.w1 = t.w1) → (2 ≤ usedWords o → u.w2 = t.w2) → (3 ≤ usedWords o → u.w3 = t.w3) →
    decode m u = decode m t) ∧
  (∀ (m : OpcMap) (i : Instr),
    (usedWords i.opcode < 1 → (encode m i).w1 = 0) ∧ (usedWords i.opcode < 2 → (encode m i).w2 = 0) ∧
    (usedWords i.opcode < 3 → (encode m i).w3 = 0))

/-- `Reg(w)`: under every numbering of the nine registers by 0..8 a field names the register whose index it holds, and names
none exactly when its signed reading is outside 0..8; under the decided numbering the nine indices are those of R21
(decisions D4, D5; log 16). -/
def Obligations.RegisterFieldsNameRegisters : Prop :=
  (∀ m : RegMap, m.bijective = true → ∀ (w : Int) (r : Reg),
    (registerAt m w = some r ↔ (m.index r : Int) = w) ∧ (registerAt m w = none ↔ ¬ (0 ≤ w ∧ w ≤ 8))) ∧
  registerAt .standard 0 = some .r0 ∧ registerAt .standard 1 = some .r1 ∧ registerAt .standard 2 = some .r2 ∧
  registerAt .standard 3 = some .r3 ∧ registerAt .standard 4 = some .r4 ∧ registerAt .standard 5 = some .pc ∧
  registerAt .standard 6 = some .sp ∧ registerAt .standard 7 = some .base ∧ registerAt .standard 8 = some .lim

/-- An instruction with a register field outside 0..8 raises `IllegalInstruction` and does nothing else, whatever other
condition of it would raise too (R105, R235; decisions D5, D36; log 16). -/
def Obligations.BadRegisterFieldIsIllegal : Prop :=
  ∀ (s : State) (i : Instr), s.cfg.regnum.bijective = true → i.wellFormed = false →
    exec i s = .next (s.trap .illegalInstruction)

/-! ### Register set, arithmetic and copy (40_arith_move.md) -/

/-- SET (R130): encoding, result, frame, the +4 that follows `SET PC`, and the trap on a bad register index. -/
def Obligations.SetWritesImmediate : Prop :=
  ∀ (s : State) (rd imm : Word),
    encode .standard (.set rd imm) = ⟨0, rd, imm, 0⟩ ∧
    (∀ d, s.regField rd = some d →
      ∃ t, exec (.set rd imm) s = .next t ∧ t.reg d = imm ∧ regsOnly [d] s t ∧ (d = .pc → plainPcWrite t imm)) ∧
    (s.regField rd = none → exec (.set rd imm) s = .next (s.trap .illegalInstruction))

/-- ADD (R131). -/
def Obligations.AddWritesWrappedSum : Prop :=
  ∀ (s : State) (rd rs1 rs2 : Word),
    encode .standard (.add rd rs1 rs2) = ⟨1, rd, rs1, rs2⟩ ∧
    (∀ d a b, s.regField rd = some d → s.regField rs1 = some a → s.regField rs2 = some b →
      ∃ t, exec (.add rd rs1 rs2) s = .next t ∧ t.reg d = wrap s.cfg.xlen (s.reg a + s.reg b) ∧ regsOnly [d] s t) ∧
    (s.regField rd = none ∨ s.regField rs1 = none ∨ s.regField rs2 = none →
      exec (.add rd rs1 rs2) s = .next (s.trap .illegalInstruction))

/-- SUB (R132): the second register is subtracted from the first. -/
def Obligations.SubWritesWrappedDifference : Prop :=
  ∀ (s : State) (rd rs1 rs2 : Word),
    encode .standard (.sub rd rs1 rs2) = ⟨2, rd, rs1, rs2⟩ ∧
    (∀ d a b, s.regField rd = some d → s.regField rs1 = some a → s.regField rs2 = some b →
      ∃ t, exec (.sub rd rs1 rs2) s = .next t ∧ t.reg d = wrap s.cfg.xlen (s.reg a - s.reg b) ∧ regsOnly [d] s t) ∧
    (s.regField rd = none ∨ s.regField rs1 = none ∨ s.regField rs2 = none →
      exec (.sub rd rs1 rs2) s = .next (s.trap .illegalInstruction))

/-- MUL (R133): the low word of the full product. -/
def Obligations.MulWritesLowProduct : Prop :=
  ∀ (s : State) (rd rs1 rs2 : Word),
    encode .standard (.mul rd rs1 rs2) = ⟨3, rd, rs1, rs2⟩ ∧
    (∀ d a b, s.regField rd = some d → s.regField rs1 = some a → s.regField rs2 = some b →
      ∃ t, exec (.mul rd rs1 rs2) s = .next t ∧ t.reg d = wrap s.cfg.xlen (s.reg a * s.reg b) ∧ regsOnly [d] s t) ∧
    (s.regField rd = none ∨ s.regField rs1 = none ∨ s.regField rs2 = none →
      exec (.mul rd rs1 rs2) s = .next (s.trap .illegalInstruction))

/-- DIV (R134): the quotient rounded toward zero (R137), wrapped; a divisor of 0 raises `DivideByZero` from the unchanged
state, whatever the dividend; the register indices are checked first. -/
def Obligations.DivWritesTruncatedQuotient : Prop :=
  ∀ (s : State) (rd rs1 rs2 : Word),
    encode .standard (.div rd rs1 rs2) = ⟨4, rd, rs1, rs2⟩ ∧
    (∀ d a b, s.regField rd = some d → s.regField rs1 = some a → s.regField rs2 = some b →
      (s.reg b ≠ 0 →
        ∃ t, exec (.div rd rs1 rs2) s = .next t ∧ t.reg d = wrap s.cfg.xlen (sdiv (s.reg a) (s.reg b)) ∧ regsOnly [d] s t) ∧
      (s.reg b = 0 → exec (.div rd rs1 rs2) s = .next (s.trap .divideByZero))) ∧
    (s.regField rd = none ∨ s.regField rs1 = none ∨ s.regField rs2 = none →
      exec (.div rd rs1 rs2) s = .next (s.trap .illegalInstruction))

/-- `sdiv` (R137): its size is the floor of the quotient of the sizes and its sign the product of the signs, so it is the
quotient rounded toward zero (decision D10; log 16). -/
def Obligations.SdivRoundsTowardZero : Prop :=
  ∀ a b : Int, b ≠ 0 →
    (sdiv a b).natAbs = a.natAbs / b.natAbs ∧ (sdiv a b = 0 ∨ (sdiv a b).sign = a.sign * b.sign) ∧
    sdiv a b = Int.tdiv a b

/-- The arithmetic laws of R10 and R138, at every width of at least 1: `wrap` gives the one word congruent to an integer modulo
2^`XLEN`, words are the integers from -2^(`XLEN`-1) to 2^(`XLEN`-1)-1, `u` is the congruent one from 0 on; sum, difference
and product are the same words for signed and unsigned readings; and the one overflow of DIV gives the dividend back
(decision D9; log 16). -/
def Obligations.ArithmeticWraps : Prop :=
  ∀ xlen : Nat, 1 ≤ xlen →
    (∀ w : Int, isWord xlen w = true ↔ -(2 ^ (xlen - 1)) ≤ w ∧ w < 2 ^ (xlen - 1)) ∧
    (∀ n w : Int, wrap xlen n = w ↔ isWord xlen w = true ∧ (2 ^ xlen : Int) ∣ w - n) ∧
    (∀ w : Int, uval xlen w < 2 ^ xlen ∧ (2 ^ xlen : Int) ∣ (uval xlen w : Int) - w) ∧
    (∀ x y : Int,
      wrap xlen (x + y) = wrap xlen ((uval xlen x : Int) + uval xlen y) ∧
      wrap xlen (x - y) = wrap xlen ((uval xlen x : Int) - uval xlen y) ∧
      wrap xlen (x * y) = wrap xlen ((uval xlen x : Int) * uval xlen y)) ∧
    wrap xlen (sdiv (-(2 ^ (xlen - 1))) (-1)) = -(2 ^ (xlen - 1))

/-- COPY (R135), with the +4 that follows a copy to PC. -/
def Obligations.CopyWritesSource : Prop :=
  ∀ (s : State) (rd rs : Word),
    encode .standard (.copy rd rs) = ⟨5, rd, rs, 0⟩ ∧
    (∀ d a, s.regField rd = some d → s.regField rs = some a →
      ∃ t, exec (.copy rd rs) s = .next t ∧ t.reg d = s.reg a ∧ regsOnly [d] s t ∧
        (d = .pc → plainPcWrite t (s.reg a))) ∧
    (s.regField rd = none ∨ s.regField rs = none →
      exec (.copy rd rs) s = .next (s.trap .illegalInstruction))

/-! ### Control transfer (41_branch.md) -/

/-- BRANCH (R150, R151): a target that translates is written to PC as it stands and `pc_hold` is set; a target that does not
raises `IllegalMemoryAccess` with the target, from the unchanged state. -/
def Obligations.BranchTakesValidTarget : Prop :=
  ∀ (s : State) (addr : Word),
    encode .standard (.branch addr) = ⟨6, addr, 0, 0⟩ ∧
    (∀ pa, s.translate (addr) = some pa →
      ∃ t, exec (.branch addr) s = .next t ∧ t.reg .pc = addr ∧ t.pcHold = true ∧ sameRegsBut [.pc] s t ∧ sameMem s t ∧
        sameControl s t) ∧
    (s.translate (addr) = none → exec (.branch addr) s = .next (s.trap (.illegalMemoryAccess addr)))

/-- BNE (R152): equal words do nothing and validate nothing; different words take the branch (decision D15; log 16). -/
def Obligations.BneBranchesOnDifference : Prop :=
  ∀ (s : State) (ra rb addr : Word),
    encode .standard (.bne ra rb addr) = ⟨7, ra, rb, addr⟩ ∧
    (∀ a b, s.regField ra = some a → s.regField rb = some b →
      (s.reg a = s.reg b → exec (.bne ra rb addr) s = .next s) ∧
      (∀ pa, s.reg a ≠ s.reg b → s.translate (addr) = some pa →
        ∃ t, exec (.bne ra rb addr) s = .next t ∧ t.reg .pc = addr ∧ t.pcHold = true ∧ sameRegsBut [.pc] s t ∧ sameMem s t ∧
          sameControl s t) ∧
      (s.reg a ≠ s.reg b → s.translate (addr) = none →
        exec (.bne ra rb addr) s = .next (s.trap (.illegalMemoryAccess addr)))) ∧
    (s.regField ra = none ∨ s.regField rb = none →
      exec (.bne ra rb addr) s = .next (s.trap .illegalInstruction))

/-- BLT (R153): the branch is taken exactly when the first register is less than the second, both read as signed
(decision D11; log 16). -/
def Obligations.BltBranchesOnSignedLess : Prop :=
  ∀ (s : State) (ra rb addr : Word),
    encode .standard (.blt ra rb addr) = ⟨8, ra, rb, addr⟩ ∧
    (∀ a b, s.regField ra = some a → s.regField rb = some b →
      (s.reg b ≤ s.reg a → exec (.blt ra rb addr) s = .next s) ∧
      (∀ pa, s.reg a < s.reg b → s.translate (addr) = some pa →
        ∃ t, exec (.blt ra rb addr) s = .next t ∧ t.reg .pc = addr ∧ t.pcHold = true ∧ sameRegsBut [.pc] s t ∧ sameMem s t ∧
          sameControl s t) ∧
      (s.reg a < s.reg b → s.translate (addr) = none →
        exec (.blt ra rb addr) s = .next (s.trap (.illegalMemoryAccess addr)))) ∧
    (s.regField ra = none ∨ s.regField rb = none →
      exec (.blt ra rb addr) s = .next (s.trap .illegalInstruction))

/-! ### Stack (42_stack.md) -/

/-- PUSH (R161): the word read before SP changes is stored at the translated `StackVA(SP)` and SP is incremented, wrapping; a
slot that does not translate raises `IllegalMemoryAccess` from the unchanged state, carrying `StackVA(SP)` wherever a
word can hold it (where none can, the payload is the free value of log 11 and the statement leaves it open). That the slot
then holds the word needs memory in its canonical form, which every step keeps (`Obligations.StepKeepsInvariant`)
(decisions D18, D19; log 16). -/
def Obligations.PushStoresAtStackSlot : Prop :=
  ∀ (s : State) (r : Word),
    encode .standard (.push r) = ⟨10, r, 0, 0⟩ ∧
    (∀ d pa, s.regField r = some d → s.translate ((s.reg .lim - s.reg .base) - s.reg .sp) = some pa →
      ∃ t, exec (.push r) s = .next t ∧ t.reg .sp = wrap s.cfg.xlen (s.reg .sp + 1) ∧ storeOnly [.sp] pa s t ∧
        (s.mem.wf = true → t.mem.read pa = s.reg d)) ∧
    (∀ d, s.regField r = some d → s.translate ((s.reg .lim - s.reg .base) - s.reg .sp) = none →
      ∃ w, exec (.push r) s = .next (s.trap (.illegalMemoryAccess w)) ∧
        (isWord s.cfg.xlen ((s.reg .lim - s.reg .base) - s.reg .sp) = true → w = (s.reg .lim - s.reg .base) - s.reg .sp)) ∧
    (s.regField r = none → exec (.push r) s = .next (s.trap .illegalInstruction))

/-- POP (R162): with SP at most 0 nothing happens; else the word at the translated `StackVA(SP - 1)` is read, SP is
decremented and the destination is written last; a slot that does not translate raises from the unchanged state (decisions D18,
D20; log 16). -/
def Obligations.PopReadsStackSlot : Prop :=
  ∀ (s : State) (r : Word),
    encode .standard (.pop r) = ⟨9, r, 0, 0⟩ ∧
    (∀ d, s.regField r = some d → s.reg .sp ≤ 0 → exec (.pop r) s = .next s) ∧
    (∀ d pa, s.regField r = some d → 0 < s.reg .sp →
      s.translate ((s.reg .lim - s.reg .base) - (s.reg .sp - 1)) = some pa →
      ∃ t, exec (.pop r) s = .next t ∧ t.reg d = s.mem.read pa ∧ (d ≠ .sp → t.reg .sp = s.reg .sp - 1) ∧
        regsOnly [d, .sp] s t ∧ (d = .pc → plainPcWrite t (s.mem.read pa))) ∧
    (∀ d, s.regField r = some d → 0 < s.reg .sp →
      s.translate ((s.reg .lim - s.reg .base) - (s.reg .sp - 1)) = none →
      ∃ w, exec (.pop r) s = .next (s.trap (.illegalMemoryAccess w)) ∧
        (isWord s.cfg.xlen ((s.reg .lim - s.reg .base) - (s.reg .sp - 1)) = true →
          w = (s.reg .lim - s.reg .base) - (s.reg .sp - 1))) ∧
    (s.regField r = none → exec (.pop r) s = .next (s.trap .illegalInstruction))

/-- The round-trip law (R163): a POP of the same register at once after a PUSH that raised no trap, with SP at least 0 and
not at its greatest value and the register not PC, gives the register and SP their values from before the PUSH. What
the cycle does between the two instructions, moving PC and counting ticks, is left open (`u` agrees with `t` on memory, on
the configuration and on every register but PC). In paged mode the rule is stated for a PUSH that does not overwrite the very
page-table entry its slot is reached through (decisions D18, D19; log 16). -/
def Obligations.PushThenPopRestores : Prop :=
  ∀ (s t u : State) (r : Word) (d : Reg),
    s.mem.wf = true → s.regField r = some d → d ≠ .pc → 0 ≤ s.reg .sp → s.reg .sp < 2 ^ (s.cfg.xlen - 1) - 1 →
    exec (.push r) s = .next t → t.env.log = s.env.log →
    (s.cfg.mode = .paged → t.translate (s.stackVa (s.reg .sp)) = s.translate (s.stackVa (s.reg .sp))) →
    u.mem = t.mem → u.cfg = t.cfg → (∀ q, q ≠ .pc → u.reg q = t.reg q) →
    ∃ v, exec (.pop r) u = .next v ∧ v.reg d = s.reg d ∧ v.reg .sp = s.reg .sp

/-! ### Load and store (43_load_store.md) -/

/-- LOAD (R171): the destination gets the word at the translated address that the second register holds; where it does not
translate `IllegalMemoryAccess` carries that address and nothing changes. -/
def Obligations.LoadReadsTranslatedWord : Prop :=
  ∀ (s : State) (rd ra : Word),
    encode .standard (.load rd ra) = ⟨11, rd, ra, 0⟩ ∧
    (∀ d a, s.regField rd = some d → s.regField ra = some a →
      (∀ pa, s.translate (s.reg a) = some pa →
        ∃ t, exec (.load rd ra) s = .next t ∧ t.reg d = s.mem.read pa ∧ regsOnly [d] s t ∧
          (d = .pc → plainPcWrite t (s.mem.read pa))) ∧
      (s.translate (s.reg a) = none → exec (.load rd ra) s = .next (s.trap (.illegalMemoryAccess (s.reg a))))) ∧
    (s.regField rd = none ∨ s.regField ra = none →
      exec (.load rd ra) s = .next (s.trap .illegalInstruction))

/-- SAVE (R172): the word of the first register is stored at the translated address that the second holds, and no register
changes. That the word then stands there needs memory in its canonical form (`Obligations.StepKeepsInvariant`). -/
def Obligations.SaveStoresTranslatedWord : Prop :=
  ∀ (s : State) (rs ra : Word),
    encode .standard (.save rs ra) = ⟨12, rs, ra, 0⟩ ∧
    (∀ d a, s.regField rs = some d → s.regField ra = some a →
      (∀ pa, s.translate (s.reg a) = some pa →
        ∃ t, exec (.save rs ra) s = .next t ∧ storeOnly [] pa s t ∧ (s.mem.wf = true → t.mem.read pa = s.reg d)) ∧
      (s.translate (s.reg a) = none → exec (.save rs ra) s = .next (s.trap (.illegalMemoryAccess (s.reg a))))) ∧
    (s.regField rs = none ∨ s.regField ra = none →
      exec (.save rs ra) s = .next (s.trap .illegalInstruction))

/-- A store is seen by every later fetch that covers its word, with no operation between (R80, R83): after a SAVE that
raised no trap, a fetch of four words that starts at any virtual address reads the stored word where it meets it and the old
memory elsewhere (decision D35; log 16). -/
def Obligations.FetchSeesTheStore : Prop :=
  ∀ (s t : State) (rs ra : Word) (d a : Reg) (pa q : Nat) (va : Int),
    s.mem.wf = true → s.regField rs = some d → s.regField ra = some a → s.translate (s.reg a) = some pa →
    exec (.save rs ra) s = .next t → t.translate va = some q → q + 3 < t.cfg.memSize →
    ∃ w, t.fetchAt va = some w ∧
      w.w0 = (if q = pa then s.reg d else s.mem.read q) ∧
      w.w1 = (if q + 1 = pa then s.reg d else s.mem.read (q + 1)) ∧
      w.w2 = (if q + 2 = pa then s.reg d else s.mem.read (q + 2)) ∧
      w.w3 = (if q + 3 = pa then s.reg d else s.mem.read (q + 3))

/-! ### TRAP and the trap port (44_trap.md, 60_exceptions.md) -/

/-- TRAP (R180): whatever its unused words, it raises `SystemCall` and the engine does nothing else: one call leaves the
trap port, with PC still at the TRAP, and the state after it is the one the handler leaves. -/
def Obligations.TrapRaisesSystemCall : Prop :=
  ∀ (s : State) (w1 w2 w3 : Word),
    decode .standard ⟨13, w1, w2, w3⟩ = .ok .trap ∧
    ∃ t, exec .trap s = .next t ∧ t = s.trap .systemCall ∧
      t.env.log = { call := .systemCall, pc := s.reg .pc, ticks := s.ticks } :: s.env.log

/-- Every instruction completes, and its traps are precise (R194, R224): it either raises one of the four synchronous
kinds from the state as it found it, or makes no call and touches neither `ticks`, `mbox`, `halted`, the configuration nor
the environment (R253) (decision D18; log 16). -/
def Obligations.InstructionsArePrecise : Prop :=
  ∀ (s : State) (i : Instr),
    (∃ c : TrapCall, c.synchronous = true ∧ exec i s = .next (s.trap c)) ∨
    (∃ t, exec i s = .next t ∧ sameControl s t)

/-- Which instruction raises which kind (R221 to R223, R225): `DivideByZero` comes from DIV only, `SystemCall` from TRAP only
and always, `IllegalMemoryAccess` from the instructions that translate an address, `IllegalInstruction` from a register field
(decisions D5, D36; log 16). -/
def Obligations.TrapKindsBelongToInstructions : Prop :=
  ∀ (s t : State) (i : Instr) (c : TrapCall), s.cfg.regnum.bijective = true →
    exec i s = .next t → t.env.log = s.recordOf c :: s.env.log →
    (c = .divideByZero → i.opcode = .div) ∧ (c = .systemCall ↔ i.opcode = .trap) ∧
    (c = .illegalInstruction ↔ i.wellFormed = false) ∧
    (∀ w, c = .illegalMemoryAccess w →
      i.opcode = .branch ∨ i.opcode = .bne ∨ i.opcode = .blt ∨ i.opcode = .push ∨ i.opcode = .pop ∨ i.opcode = .load ∨
        i.opcode = .save)

/-- What a call of the kernel may and may not do (R226 to R229), whatever the kernel and whichever of the seven kinds the call
is: it never decreases `ticks`, cannot touch `mbox` or the configuration or clear `halted` or `pc_hold`, reaches no word
outside the array, and leaves one record; a call of sub-step (a) leaves `pc_hold` as it is (R191; decisions D16, D25; log 16). -/
def Obligations.KernelIsConfinedToItsPort : Prop :=
  ∀ (s : State) (c : TrapCall),
    (∀ t, t = s.trap c ∨ t = s.trapBeforeFetch c →
      s.ticks ≤ t.ticks ∧ t.mbox = s.mbox ∧ t.cfg = s.cfg ∧ (s.halted = true → t.halted = true) ∧
      (s.pcHold = true → t.pcHold = true) ∧ (∀ pa, s.cfg.memSize ≤ pa → t.phys pa = s.phys pa) ∧
      t.env.log = s.recordOf c :: s.env.log ∧ t.env.posts = s.env.posts) ∧
    (s.trapBeforeFetch c).pcHold = s.pcHold

/-- What a call leaves when the kernel's answer is settled beforehand (R226 to R228; the scripted answers are the model's own,
log 4): every register and every word of the array holds what the answer wrote there last, or its old word; the ticks are
added; `HALT` sets `halted`, and otherwise `HOLD_PC` sets `pc_hold` (decisions D16, D22, D25; log 16). -/
def Obligations.ScriptedAnswerTakesEffect : Prop :=
  ∀ (s : State) (c : TrapCall) (k : KernelAnswer) (rest : List KernelAnswer),
    s.env.answers = k :: rest → s.mem.wf = true →
    answerWritten k s (s.trap c) ∧ (s.trap c).halted = (s.halted || k.halt) ∧
    (s.trap c).pcHold = (s.pcHold || (!k.halt && k.holdPc)) ∧ (s.trap c).env.answers = rest ∧
    (s.trap c).env.kappa = s.env.kappa

/-- What a call leaves when no answer is settled (R226; the free kernel is the model's own, log 4): the answer of `K` to the
call, the registers, memory and ticks at the call and the private state takes effect as a settled one does, in sub-step (a) as
in the others, and the private state becomes `K`'s next one (decisions D16, D22, D25; log 16). -/
def Obligations.FreeKernelAnswerTakesEffect : Prop :=
  ∀ (s : State) (c : TrapCall) (k : KernelAnswer) (next : Nat),
    s.env.answers = [] → Config.kernel s.env.kappa c { regs := s.regs, mem := s.mem, ticks := s.ticks } = (k, next) →
    s.mem.wf = true →
    (∀ t, t = s.trap c ∨ t = s.trapBeforeFetch c →
      answerWritten k s t ∧ t.halted = (s.halted || k.halt) ∧ t.env.answers = [] ∧ t.env.kappa = next) ∧
    (s.trap c).pcHold = (s.pcHold || (!k.halt && k.holdPc)) ∧ (s.trapBeforeFetch c).pcHold = s.pcHold

/-! ### The translator and memory (20_memory.md) -/

/-- Segment mode (R68): `va` translates to `pa` exactly when `pa` is BASE + `va` on unbounded integers, lies between BASE and
LIM inclusive, and is an address of the array (decision D12; log 16). -/
def Obligations.SegmentTranslation : Prop :=
  ∀ (s : State) (va : Int) (pa : Nat), s.cfg.mode = .segment →
    (s.translate va = some pa ↔
      (pa : Int) = s.reg .base + va ∧ s.reg .base ≤ pa ∧ (pa : Int) ≤ s.reg .lim ∧ pa < s.cfg.memSize)

/-- Paged mode (R71, R72): `va` translates to `pa` exactly when `va` is not negative, its page number is below `NUM_VPAGES` and
`MEM_SIZE`, the entry at that physical address is odd, and `pa` is the entry's frame times the page size plus the offset and
an address of the array (decisions D27, D28; log 16). -/
def Obligations.PagedTranslation : Prop :=
  ∀ (s : State), s.cfg.mode = .paged →
    (∀ va pa : Nat, s.translate va = some pa ↔
      va / pageSize s.cfg < s.cfg.numVPages ∧ va / pageSize s.cfg < s.cfg.memSize ∧
      uval s.cfg.xlen (s.mem.read (va / pageSize s.cfg)) % 2 = 1 ∧
      pa = uval s.cfg.xlen (s.mem.read (va / pageSize s.cfg)) / 2 ^ s.cfg.pteStatusBits * pageSize s.cfg + va % pageSize s.cfg ∧
      pa < s.cfg.memSize) ∧
    (∀ va : Int, va < 0 → s.translate va = none)

/-- In either mode a negative virtual address never translates, and an address that does is one of the array (R67, R68, R72)
(decisions D2, D28; log 16). -/
def Obligations.TranslationStaysInTheArray : Prop :=
  ∀ (s : State) (va : Int),
    (va < 0 → s.translate va = none) ∧ (∀ pa, s.translate va = some pa → pa < s.cfg.memSize)

/-- The page size (R70): the larger of the greatest power of two at most `PAGE_SIZE_CFG` and the least power of two at least
`MIN_PAGE_SIZE`, with `OFFSET_BITS` its logarithm and `OFFSET_MASK` one less; and the spec's worked examples
(decision D26; log 16). -/
def Obligations.PageSizeDerivation : Prop :=
  (∀ c : Config, 1 ≤ c.pageSizeCfg → 1 ≤ c.minPageSize →
    ∃ j k, 2 ^ j ≤ c.pageSizeCfg ∧ (∀ n, 2 ^ n ≤ c.pageSizeCfg → n ≤ j) ∧ c.minPageSize ≤ 2 ^ k ∧
      (∀ n, c.minPageSize ≤ 2 ^ n → k ≤ n) ∧ pageSize c = max (2 ^ j) (2 ^ k) ∧ pageSize c = 2 ^ offsetBits c ∧
      offsetMask c = pageSize c - 1) ∧
  (∀ c : Config, configOk c = true → c.mode = .paged → offsetBits c ≤ c.xlen - 2) ∧
  pageSize { Config.worked with pageSizeCfg := 20, minPageSize := 4 } = 16 ∧
  offsetBits { Config.worked with pageSizeCfg := 20, minPageSize := 4 } = 4 ∧
  pageSize { Config.worked with pageSizeCfg := 3, minPageSize := 4 } = 4 ∧
  offsetBits { Config.worked with pageSizeCfg := 3, minPageSize := 4 } = 2

/-- A fetch (R76, R77): it succeeds exactly when its first word translates and its fourth is still in the array, and reads four
consecutive physical words, opcode lowest; LIM and page ends beyond the first word do not matter (decision D13; log 16). -/
def Obligations.FetchReadsFourPhysicalWords : Prop :=
  ∀ (s : State) (va : Int) (t : Tuple),
    s.fetchAt va = some t ↔
      ∃ pa, s.translate va = some pa ∧ pa + 3 < s.cfg.memSize ∧
        t = ⟨s.mem.read pa, s.mem.read (pa + 1), s.mem.read (pa + 2), s.mem.read (pa + 3)⟩

/-- The memory array (R60): a set changes only the addressed word, which then reads as the word set; and memories in canonical
form that read alike everywhere are equal (the canonical form is the model's own, log 3). -/
def Obligations.MemoryReadsBackWrites : Prop :=
  (∀ (m : Memory) (a : Nat) (v : Word), m.wf = true →
    (m.write a v).wf = true ∧ ∀ b, (m.write a v).read b = if b = a then v else m.read b) ∧
  (∀ m n : Memory, m.wf = true → n.wf = true → (∀ a, m.read a = n.read a) → m = n)

/-! ### The mailbox (60_exceptions.md) -/

/-- `post` and `tryTake` (R241 to R243): a post completes exactly when the slot is empty and changes nothing but the slot; a
take returns what the slot holds and leaves it empty; an event posted is the one taken. -/
def Obligations.MailboxHoldsOneEvent : Prop :=
  ∀ (s : State) (ev : InterruptEvent),
    (s.mbox = none → s.post ev = some { s with mbox := some ev }) ∧
    (s.mbox ≠ none → s.post ev = none) ∧
    s.tryTake = (s.mbox, { s with mbox := none }) ∧
    (∀ t, s.post ev = some t → t.tryTake = (some ev, s))

/-- Sub-step (a) (R191, R247): the poll of an empty slot does nothing; a full one is emptied and its event becomes exactly one
call, read completions and write completions each to their own handler with the three words unchanged; what the handler wrote
is in effect after the poll, so that the fetch reads from the PC it leaves (R84); `HALT` sets `halted`, and `HOLD_PC` is ignored
(decisions D16, D22, D30; log 16; the settled answers and the log of calls are the model's own, log 4, log 8). -/
def Obligations.PollDispatchesTheEvent : Prop :=
  ∀ s : State,
    (s.mbox = none → s.poll = s) ∧
    (∀ dev addr data kind, s.mbox = some ⟨kind, dev, addr, data⟩ →
      s.poll.mbox = none ∧ s.poll.pcHold = s.pcHold ∧
      s.poll.env.log =
        s.recordOf (if kind = .readComplete then .ioReadComplete dev addr data else .ioWriteComplete dev addr data)
          :: s.env.log ∧
      (∀ k rest, s.env.answers = k :: rest → s.mem.wf = true →
        answerWritten k s s.poll ∧ s.poll.halted = (s.halted || k.halt) ∧ s.poll.env.answers = rest))

/-- Delivery (R231, R242, R244, R247; the schedule of posts is the model's own, log 7): in a step of a running engine the event
in the slot, or a post that finds it empty at the turn before the poll, is delivered in that step as its first call; and a post
at the turn after the take fills the freed slot and waits there, whether the cycle goes on or a handler halts it, one that was
blocked before the poll among them. -/
def Obligations.PostsAreDeliveredOnceInOrder : Prop :=
  ∀ s t : State, s.halted = false → step s = .next t →
    (∀ old, s.mbox = some old → ∃ later, t.env.log = later ++ s.recordOf old.call :: s.env.log) ∧
    (∀ ev rest, s.env.posts = some ev :: rest → s.mbox = none →
      (∃ later, t.env.log = later ++ s.recordOf ev.call :: s.env.log) ∧ t.mbox = rest.head?.join ∧
        t.env.posts = rest.tail) ∧
    (∀ ev rest old, s.env.posts = some ev :: rest → s.mbox = some old → t.mbox = some ev ∧ t.env.posts = rest) ∧
    (∀ rest, s.env.posts = none :: rest → t.mbox = rest.head?.join ∧ t.env.posts = rest.tail) ∧
    (s.env.posts = [] → t.mbox = none ∧ t.env.posts = [])

/-- Nothing after the take looks at the slot (R231, R243): a fetch with its execution, the tick with the advance, and a call of the
kernel leave the same state, whatever the slot holds and whatever is still to be posted, and leave both alone. So the moment of
the cycle after the take at which a post completes cannot be told (the schedule is the model's own, log 7). -/
def Obligations.PostMomentIsInvisible : Prop :=
  ∀ (s : State) (m : Option InterruptEvent) (ps : List (Option InterruptEvent)),
    (∃ d, s.fetchExecute = .next d ∧ (s.withSlot m ps).fetchExecute = .next (d.withSlot m ps) ∧
      d.mbox = s.mbox ∧ d.env.posts = s.env.posts) ∧
    (s.withSlot m ps).finish = s.finish.withSlot m ps ∧
    s.finish.mbox = s.mbox ∧ s.finish.env.posts = s.env.posts ∧
    ∀ c, (s.withSlot m ps).trapBeforeFetch c = (s.trapBeforeFetch c).withSlot m ps

/-! ### The cycle (50_engine_cycle.md) -/

/-- A step runs the decoded instruction: when a running engine reaches its fetch and the four words at PC decode to `i`, the
step is `exec i` at the state of the fetch, followed by sub-steps (e) and (f) (`State.finish`). The state of the fetch is the
state after the poll and the device agents' turns on either side of it, with `pc_hold` clear; where no event is at hand it
differs from the state in `pc_hold` alone (R192 to R194, R203) (decision D16; log 16). -/
def Obligations.StepRunsDecodedInstruction : Prop :=
  ∀ (s : State) (w : Tuple) (i : Instr),
    (s.reachesFetch → s.atFetch.fetch = some w → decode s.cfg.opc w = .ok i →
      step s = match exec i s.atFetch with
        | .next d => .next d.finish
        | .fault r => .fault r
        | .refused r => .refused r) ∧
    (s.mbox = none → s.env.posts = [] → s.atFetch = { s with pcHold := false })

/-- A tuple that is no instruction (R181): the step raises `IllegalInstruction` with no other effect and goes on with sub-steps
(e) and (f); so does the step of a known opcode with a register field outside 0..8. -/
def Obligations.UnknownOpcodeRaisesIllegal : Prop :=
  ∀ (s : State) (w : Tuple),
    s.reachesFetch → s.atFetch.fetch = some w →
    ((∀ o, s.cfg.opc.word o ≠ w.w0) ∨ (∃ i, decode s.cfg.opc w = .ok i ∧ i.wellFormed = false)) →
    step s = .next (s.atFetch.trap .illegalInstruction).finish

/-- A fetch fault (R192): `IllegalMemoryAccess` with PC, then sub-steps (e) and (f); decode and execute are skipped
(decision D14; log 16). -/
def Obligations.FetchFaultSkipsExecution : Prop :=
  ∀ s : State, s.reachesFetch → s.atFetch.fetch = none →
    step s = .next (s.atFetch.trap (.illegalMemoryAccess (s.atFetch.reg .pc))).finish

/-- Sub-step (e) (R196): one tick, and a call of the clock handler exactly when the count just made is a multiple of
`CLOCK_PERIOD`; the test is not repeated after the handler has added ticks (decision D21; log 16). -/
def Obligations.TickCallsClockWhenDue : Prop :=
  ∀ s : State,
    ((s.ticks + 1) % s.cfg.clockPeriod ≠ 0 → s.tick = { s with ticks := s.ticks + 1 }) ∧
    ((s.ticks + 1) % s.cfg.clockPeriod = 0 →
      s.tick = State.trap { s with ticks := s.ticks + 1 } .clock ∧
      s.tick.env.log = { call := .clock, pc := s.reg .pc, ticks := s.ticks + 1 } :: s.env.log)

/-- Sub-step (f) and the end of a cycle on `HALT` (R197 to R199): after a halting answer in (b) to (d) nothing more happens;
after one in (e) PC stays; otherwise PC moves on by 4, wrapping, exactly when `pc_hold` is clear (decision D22; log 16). -/
def Obligations.FinishAdvancesUnlessHeldOrHalted : Prop :=
  ∀ s : State,
    (s.halted = true → s.finish = s) ∧
    (s.halted = false → s.tick.halted = true ∨ s.tick.pcHold = true → s.finish = s.tick) ∧
    (s.halted = false → s.tick.halted = false → s.tick.pcHold = false →
      s.finish.reg .pc = wrap s.cfg.xlen (s.tick.reg .pc + 4) ∧ regsOnly [.pc] s.tick s.finish)

/-- A halting answer at the poll ends the cycle at once (R199): no fetch, no tick, no advance; only a post may still complete, while
the handler runs or after it (R200, R231; log 7) (decision D22; log 16). -/
def Obligations.HaltAtThePollEndsTheCycle : Prop :=
  ∀ s : State, configOk s.cfg = true → s.halted = false → s.deviceTurn.poll.halted = true →
    step s = .next s.deviceTurn.poll.deviceTurn

/-- A halted engine performs nothing and keeps its state (R190, R200, R257): the only step left is a turn of the device agents,
which changes no register, no word, no tick, no bit and no call: a post into the empty slot fills it with its event, a full slot
keeps its own, and an idle turn leaves the slot; when none can move the step is the fault `engineHalted` (the fault's name
and the schedule are the model's own, log 7, log 9; decision D22; log 16). -/
def Obligations.HaltedEnginePerformsNothing : Prop :=
  ∀ s : State, configOk s.cfg = true → s.halted = true →
    (s.deviceCanMove = false → step s = .fault .engineHalted) ∧
    (s.deviceCanMove = true →
      ∃ t, step s = .next t ∧ t.regs = s.regs ∧ t.mem = s.mem ∧ t.ticks = s.ticks ∧ t.halted = true ∧
        t.pcHold = s.pcHold ∧ t.cfg = s.cfg ∧ t.env.log = s.env.log ∧ t.env.answers = s.env.answers ∧
        t.env.kappa = s.env.kappa ∧ (s.mbox ≠ none → t.mbox = s.mbox) ∧
        (∀ ev rest, s.env.posts = some ev :: rest → s.mbox = none → t.mbox = some ev ∧ t.env.posts = rest) ∧
        (∀ rest, s.env.posts = none :: rest → t.mbox = s.mbox ∧ t.env.posts = rest))

/-- A step makes at most three calls of the kernel, in the order of the sub-steps (R201): a completion from (a), one synchronous
kind from (b) to (d), the clock from (e). The log has the newest call first. -/
def Obligations.AtMostThreeKernelCalls : Prop :=
  ∀ s t : State, step s = .next t →
    ∃ io sync clk : List TrapRecord,
      t.env.log = clk ++ (sync ++ (io ++ s.env.log)) ∧
      io.length ≤ 1 ∧ sync.length ≤ 1 ∧ clk.length ≤ 1 ∧
      (∀ r ∈ io, r.call.completion = true) ∧ (∀ r ∈ sync, r.call.synchronous = true) ∧ (∀ r ∈ clk, r.call = .clock)

/-- What the handler's answer decides about PC (R182, R198, R227): for a trap from (b) to (d) of a cycle whose `pc_hold` is clear
and that makes no clock call, with the answer settled beforehand: `HALT` leaves PC and `ticks` as the handler left them;
`HOLD_PC` leaves PC as the handler left it; neither adds 4 to what the handler left (decisions D16, D22; log 16). -/
def Obligations.HandlerAnswerDecidesThePc : Prop :=
  ∀ (s : State) (c : TrapCall) (k : KernelAnswer) (rest : List KernelAnswer),
    s.halted = false → s.pcHold = false → s.env.answers = k :: rest →
    (s.ticks + k.addTicks + 1) % s.cfg.clockPeriod ≠ 0 →
    (k.halt = true → (s.trap c).finish.regs = (s.trap c).regs ∧ (s.trap c).finish.ticks = s.ticks + k.addTicks ∧
      (s.trap c).finish.halted = true) ∧
    (k.halt = false → k.holdPc = true → (s.trap c).finish.reg .pc = (s.trap c).reg .pc ∧
      (s.trap c).finish.ticks = s.ticks + k.addTicks + 1) ∧
    (k.halt = false → k.holdPc = false → (s.trap c).finish.reg .pc = wrap s.cfg.xlen ((s.trap c).reg .pc + 4) ∧
      (s.trap c).finish.ticks = s.ticks + k.addTicks + 1)

/-- A plain register write to PC is followed by the advance (R24, R130): with no event at hand, the clock not due and the words of
`SET PC, v` at PC, the step leaves `v` + 4 in PC (decision D17; log 16). -/
def Obligations.SetPcContinuesFourFurther : Prop :=
  ∀ (s : State) (rd w3 : Word) (v : Int),
    configOk s.cfg = true → s.halted = false → s.mbox = none → s.env.posts = [] → s.regField rd = some .pc →
    s.fetch = some ⟨s.cfg.opc.set, rd, v, w3⟩ → (s.ticks + 1) % s.cfg.clockPeriod ≠ 0 →
    ∃ t, step s = .next t ∧ t.reg .pc = wrap s.cfg.xlen (v + 4) ∧ t.ticks = s.ticks + 1 ∧ sameRegsBut [.pc] s t ∧ sameMem s t

/-- A taken branch lands exactly on its target (R150): with no event at hand, the clock not due and the words of a BRANCH with a
valid target at PC, the step leaves the target in PC (decision D15; log 16). -/
def Obligations.TakenBranchLandsOnTarget : Prop :=
  ∀ (s : State) (addr w2 w3 : Word) (pa : Nat),
    configOk s.cfg = true → s.halted = false → s.mbox = none → s.env.posts = [] →
    s.fetch = some ⟨s.cfg.opc.branch, addr, w2, w3⟩ → s.translate (addr) = some pa →
    (s.ticks + 1) % s.cfg.clockPeriod ≠ 0 →
    ∃ t, step s = .next t ∧ t.reg .pc = addr ∧ t.ticks = s.ticks + 1 ∧ sameRegsBut [.pc] s t ∧ sameMem s t

/-! ### Reset and the rules of the whole machine -/

/-- Reset (R35, R280): every piece of state takes the value of the table, and the configuration and the binding of the kernel
stay; the state right after reset has those values (decision D32; log 16). -/
def Obligations.ResetClearsTheBlock : Prop :=
  (∀ s : State,
    (∀ r, s.onReset.reg r = 0) ∧ (∀ a, s.onReset.mem.read a = 0) ∧ s.onReset.ticks = 0 ∧ s.onReset.mbox = none ∧
    s.onReset.halted = false ∧ s.onReset.pcHold = false ∧ s.onReset.cfg = s.cfg ∧ s.onReset.env = s.env) ∧
  (∀ r, State.reset.reg r = 0) ∧ (∀ a, State.reset.mem.read a = 0) ∧ State.reset.ticks = 0 ∧
  State.reset.mbox = none ∧ State.reset.halted = false ∧ State.reset.pcHold = false

/-- The invariant holds after reset, in every configuration of the block, wherever the device agents have only words of the
width to post (decision D32; log 16). -/
def Obligations.ResetMeetsInvariant : Prop :=
  State.reset.Inv ∧ ∀ (c : Config) (e : Env), configOk c = true →
    (∀ ev, some ev ∈ e.posts → ev.fits c.xlen = true) → (State.resetWith c e).Inv

/-- Every step keeps the invariant, whatever the kernel and the device agents do: the parameters stay a configuration of the
block, memory stays canonical, no word outside 0 .. `MEM_SIZE`-1 ever holds anything, and every word stays a word of the
block's width (R20, R30, R33, R61, R228). -/
def Obligations.StepKeepsInvariant : Prop :=
  ∀ s t : State, s.Inv → step s = .next t → t.Inv

/-- The configuration is fixed for a run (R9, R34, R249): no step changes it. -/
def Obligations.ConfigurationIsFixed : Prop :=
  ∀ s t : State, step s = .next t → t.cfg = s.cfg

/-- The tick counter is monotonic (R29): no step decreases it, and a step of a running engine that does not end halted counts at
least one (decision D21; log 16). -/
def Obligations.TicksAreMonotonic : Prop :=
  ∀ s t : State, step s = .next t → s.ticks ≤ t.ticks ∧ (t.halted = false → s.ticks < t.ticks)

/-- Only the kernel halts the machine and nothing but reset wakes it (R31, R204, R257): a halted state stays halted; a step to a
halted state made a call; and while the next three answers of the kernel are settled and none says `HALT`, a step of a running
engine ends running (decision D22; log 16). -/
def Obligations.OnlyTheKernelHalts : Prop :=
  ∀ s t : State, step s = .next t →
    (s.halted = true → t.halted = true) ∧
    (s.halted = false → t.halted = true → s.env.log.length < t.env.log.length) ∧
    (s.halted = false → 3 ≤ s.env.answers.length → (∀ k ∈ s.env.answers, k.halt = false) → t.halted = false)

/-- The run loop (R202, R182): with no fuel nothing happens, a halted engine performs nothing however much fuel is left, and a
running one makes a step and goes on; more fuel continues the run that less fuel made; and in a configuration of the block no
run stops on its own account, after a fault or otherwise (decision D37; log 16). -/
def Obligations.RunLoopStepsWhileNotHalted : Prop :=
  (∀ s, runLoop 0 s = .next s) ∧
  (∀ n s, s.halted = true → runLoop n s = .next s) ∧
  (∀ n s t, s.halted = false → step s = .next t → runLoop (n + 1) s = runLoop n t) ∧
  (∀ n m s t, runLoop n s = .next t → runLoop (n + m) s = runLoop m t) ∧
  (∀ n s, configOk s.cfg = true → ∃ t, runLoop n s = .next t)

/-- The end of a run (R204): it is one state, it is reached from a state that was running only by a call that leaves the trap
port, in the step that makes it, and every larger amount of fuel gives it again; and it does not say that the mailbox is empty: a
post that completes in the cycle that halts is in the slot of the final state (R231, U14; the schedule is the model's own, log 7)
(decisions D22, D37; log 16). -/
def Obligations.RunEndsAtTheFirstHalt : Prop :=
  (∀ s e f, runEndsIn s e → runEndsIn s f → e = f) ∧
  (∀ s e, s.halted = false → runEndsIn s e →
    ∃ n u, runLoop n s = .next u ∧ u.halted = false ∧ step u = .next e ∧ e.halted = true ∧
      u.env.log.length < e.env.log.length ∧ (∀ k, k ≤ n → ∀ v, runLoop k s = .next v → v.halted = false) ∧
      ∀ m, runLoop (n + 1 + m) s = .next e) ∧
  (∀ s t ev rest, s.halted = false → s.env.posts = none :: some ev :: rest → step s = .next t → t.halted = true →
    runEndsIn s t ∧ t.mbox = some ev ∧ t.env.posts = rest)

/-- Confinement in segment mode (R68, R75, R253): a step that makes no call of the kernel changes no word of memory outside the
window BASE .. LIM that stood at its start (decision D12; log 16). -/
def Obligations.SegmentModeConfinesStores : Prop :=
  ∀ s t : State, s.cfg.mode = .segment → step s = .next t → t.env.log = s.env.log →
    ∀ a : Nat, (a : Int) < s.reg .base ∨ s.reg .lim < (a : Int) → t.mem.read a = s.mem.read a

/-- The placing of a fetched word (log 12) does what it says: in the configuration of `State.reset`, the model's choice (log 1), the
next step runs exactly the placed instruction, for every 128-bit word that decodes. -/
def Obligations.PlacedWordRunsNext : Prop :=
  ∀ (w : Nat) (i : Instr), decodeTableWord 128 w = some i →
    ∃ d, exec i (State.reset.withFetchWord 128 w) = .next d ∧ step (State.reset.withFetchWord 128 w) = .next d.finish
end

