-- ==== Sys2Proof/Laws/State.lean ====
section
/-! SUPPORT. One lemma for each field of the state under each of the model's plain updates, and the register file's
read-after-write, so that no proof unfolds a record update. -/

namespace Sys2Proof.Machine

@[simp] theorem Regs.get_set_same (x : Regs) (r : Reg) (v : Word) : (x.set r v).get r = v := by
  cases r <;> rfl

@[simp] theorem Regs.get_set_other (x : Regs) (r q : Reg) (v : Word) (h : q ≠ r) : (x.set r v).get q = x.get q := by
  cases r <;> cases q <;> first | exact absurd rfl h | rfl

/-- Two register files that read alike are equal. -/
theorem Regs.ext_get (x y : Regs) (h : ∀ r, x.get r = y.get r) : x = y := by
  obtain ⟨_, _, _, _, _, _, _, _, _⟩ := x
  obtain ⟨_, _, _, _, _, _, _, _, _⟩ := y
  have h0 := h .r0; have h1 := h .r1; have h2 := h .r2; have h3 := h .r3; have h4 := h .r4
  have h5 := h .pc; have h6 := h .sp; have h7 := h .base; have h8 := h .lim
  simp only [Regs.get] at h0 h1 h2 h3 h4 h5 h6 h7 h8
  subst h0 h1 h2 h3 h4 h5 h6 h7 h8
  rfl

theorem mem_regAll (r : Reg) : r ∈ Reg.all := by cases r <;> decide

section withSlot
variable (s : State) (m : Option InterruptEvent) (ps : List (Option InterruptEvent))

@[simp] theorem withSlot_regs : (s.withSlot m ps).regs = s.regs := rfl
@[simp] theorem withSlot_reg (r : Reg) : (s.withSlot m ps).reg r = s.reg r := rfl
@[simp] theorem withSlot_mem : (s.withSlot m ps).mem = s.mem := rfl
@[simp] theorem withSlot_ticks : (s.withSlot m ps).ticks = s.ticks := rfl
@[simp] theorem withSlot_mbox : (s.withSlot m ps).mbox = m := rfl
@[simp] theorem withSlot_halted : (s.withSlot m ps).halted = s.halted := rfl
@[simp] theorem withSlot_pcHold : (s.withSlot m ps).pcHold = s.pcHold := rfl
@[simp] theorem withSlot_cfg : (s.withSlot m ps).cfg = s.cfg := rfl
@[simp] theorem withSlot_posts : (s.withSlot m ps).env.posts = ps := rfl
@[simp] theorem withSlot_answers : (s.withSlot m ps).env.answers = s.env.answers := rfl
@[simp] theorem withSlot_kappa : (s.withSlot m ps).env.kappa = s.env.kappa := rfl
@[simp] theorem withSlot_log : (s.withSlot m ps).env.log = s.env.log := rfl

end withSlot

section setReg
variable (s : State) (r : Reg) (v : Word)

@[simp] theorem setReg_regs : (s.setReg r v).regs = s.regs.set r v := rfl
@[simp] theorem setReg_mem : (s.setReg r v).mem = s.mem := rfl
@[simp] theorem setReg_ticks : (s.setReg r v).ticks = s.ticks := rfl
@[simp] theorem setReg_mbox : (s.setReg r v).mbox = s.mbox := rfl
@[simp] theorem setReg_halted : (s.setReg r v).halted = s.halted := rfl
@[simp] theorem setReg_pcHold : (s.setReg r v).pcHold = s.pcHold := rfl
@[simp] theorem setReg_cfg : (s.setReg r v).cfg = s.cfg := rfl
@[simp] theorem setReg_env : (s.setReg r v).env = s.env := rfl
@[simp] theorem setReg_phys (a : Nat) : (s.setReg r v).phys a = s.phys a := rfl
@[simp] theorem setReg_reg_same : (s.setReg r v).reg r = v := by simp [State.reg]
@[simp] theorem setReg_reg_other (q : Reg) (h : q ≠ r) : (s.setReg r v).reg q = s.reg q := by
  simp [State.reg, h]

end setReg

section setPhys
variable (s : State) (pa : Nat) (v : Word)

@[simp] theorem setPhys_regs : (s.setPhys pa v).regs = s.regs := rfl
@[simp] theorem setPhys_mem : (s.setPhys pa v).mem = s.mem.write pa v := rfl
@[simp] theorem setPhys_ticks : (s.setPhys pa v).ticks = s.ticks := rfl
@[simp] theorem setPhys_mbox : (s.setPhys pa v).mbox = s.mbox := rfl
@[simp] theorem setPhys_halted : (s.setPhys pa v).halted = s.halted := rfl
@[simp] theorem setPhys_pcHold : (s.setPhys pa v).pcHold = s.pcHold := rfl
@[simp] theorem setPhys_cfg : (s.setPhys pa v).cfg = s.cfg := rfl
@[simp] theorem setPhys_env : (s.setPhys pa v).env = s.env := rfl
@[simp] theorem setPhys_reg (r : Reg) : (s.setPhys pa v).reg r = s.reg r := rfl

end setPhys

section clearHold
variable (s : State)

@[simp] theorem clearHold_regs : s.clearHold.regs = s.regs := rfl
@[simp] theorem clearHold_mem : s.clearHold.mem = s.mem := rfl
@[simp] theorem clearHold_ticks : s.clearHold.ticks = s.ticks := rfl
@[simp] theorem clearHold_mbox : s.clearHold.mbox = s.mbox := rfl
@[simp] theorem clearHold_halted : s.clearHold.halted = s.halted := rfl
@[simp] theorem clearHold_pcHold : s.clearHold.pcHold = false := rfl
@[simp] theorem clearHold_cfg : s.clearHold.cfg = s.cfg := rfl
@[simp] theorem clearHold_env : s.clearHold.env = s.env := rfl
@[simp] theorem clearHold_reg (r : Reg) : s.clearHold.reg r = s.reg r := rfl

end clearHold

section countTick
variable (s : State)

@[simp] theorem countTick_regs : s.countTick.regs = s.regs := rfl
@[simp] theorem countTick_mem : s.countTick.mem = s.mem := rfl
@[simp] theorem countTick_ticks : s.countTick.ticks = s.ticks + 1 := rfl
@[simp] theorem countTick_mbox : s.countTick.mbox = s.mbox := rfl
@[simp] theorem countTick_halted : s.countTick.halted = s.halted := rfl
@[simp] theorem countTick_pcHold : s.countTick.pcHold = s.pcHold := rfl
@[simp] theorem countTick_cfg : s.countTick.cfg = s.cfg := rfl
@[simp] theorem countTick_env : s.countTick.env = s.env := rfl
@[simp] theorem countTick_reg (r : Reg) : s.countTick.reg r = s.reg r := rfl

end countTick

section advance
variable (s : State)

@[simp] theorem advance_mem : s.advance.mem = s.mem := by unfold State.advance; split <;> rfl
@[simp] theorem advance_ticks : s.advance.ticks = s.ticks := by unfold State.advance; split <;> rfl
@[simp] theorem advance_mbox : s.advance.mbox = s.mbox := by unfold State.advance; split <;> rfl
@[simp] theorem advance_halted : s.advance.halted = s.halted := by unfold State.advance; split <;> rfl
@[simp] theorem advance_pcHold : s.advance.pcHold = s.pcHold := by unfold State.advance; split <;> rfl
@[simp] theorem advance_cfg : s.advance.cfg = s.cfg := by unfold State.advance; split <;> rfl
@[simp] theorem advance_env : s.advance.env = s.env := by unfold State.advance; split <;> rfl

end advance

end Sys2Proof.Machine
end

