-- ==== Sys2Proof/Laws/Decode.lean ====
section
/-! SUPPORT. The two lookups, of an opcode word and of a register index: each finds a name exactly when the word is that
name's number. -/

namespace Sys2Proof

open Machine

theorem mem_opcodeAll (o : Opcode) : o ∈ Opcode.all := by cases o <;> decide

/-- Two mnemonics of an injective numbering with one word are one mnemonic (30_encoding.md R103). -/
theorem OpcMap.word_inj {m : OpcMap} (h : m.injective = true) {o p : Opcode} (hop : m.word o = m.word p) : o = p := by
  have hn : (Opcode.all.map m.word).Nodup := by simpa [OpcMap.injective] using h
  exact List.inj_on_of_nodup_map hn (mem_opcodeAll o) (mem_opcodeAll p) hop

/-- The lookup of an opcode word finds the mnemonic that has it (R113). -/
theorem OpcMap.lookup_eq_some {m : OpcMap} (h : m.injective = true) (w : Word) (o : Opcode) :
    m.lookup w = some o ↔ m.word o = w := by
  constructor
  · intro hf
    simpa using List.find?_some hf
  · intro hw
    cases hf : m.lookup w with
    | none => exact absurd hw (by simpa using List.find?_eq_none.1 hf o (mem_opcodeAll o))
    | some p =>
      have hp : m.word p = w := by simpa using List.find?_some hf
      rw [OpcMap.word_inj h (hp.trans hw.symm)]

/-- The lookup of an opcode word fails when no mnemonic has it (R108). -/
theorem OpcMap.lookup_eq_none (m : OpcMap) (w : Word) : m.lookup w = none ↔ ∀ o, m.word o ≠ w := by
  simp only [OpcMap.lookup, List.find?_eq_none, beq_iff_eq]
  exact ⟨fun h o => h o (mem_opcodeAll o), fun h o _ => h o⟩

/-- A decoding answers an instruction exactly when its `Option` form does. -/
theorem decode_toOption (m : OpcMap) (t : Tuple) (i : Instr) : (decode m t).toOption = some i ↔ decode m t = .ok i := by
  cases h : decode m t <;> simp [Except.toOption]

/-- A table word decodes to an instruction exactly when its tuple does, under the table's numbering. It is stated apart because
unfolding `decodeTableWord` beside a variable makes the kernel work on the literal 2^32. -/
theorem decodeTableWord_eq_some (nbits w : Nat) (i : Instr) :
    decodeTableWord nbits w = some i ↔ decode .standard (Tuple.ofTableWord XLEN nbits w) = .ok i :=
  decode_toOption .standard _ i

namespace Machine

theorem regAll_index_inj {m : RegMap} (h : m.bijective = true) {r q : Reg} (hrq : m.index r = m.index q) : r = q := by
  have hn : (Reg.all.map m.index).Nodup := by
    simp only [RegMap.bijective, Bool.and_eq_true, decide_eq_true_eq] at h
    exact h.1
  exact List.inj_on_of_nodup_map hn (mem_regAll r) (mem_regAll q) hrq

/-- The lookup of a register index finds the register that has it (10_state.md R21). -/
theorem registerAt_eq_some {m : RegMap} (h : m.bijective = true) (w : Int) (r : Reg) :
    registerAt m w = some r ↔ (m.index r : Int) = w := by
  constructor
  · intro hf
    simpa using List.find?_some hf
  · intro hw
    cases hf : registerAt m w with
    | none => exact absurd hw (by simpa using List.find?_eq_none.1 hf r (mem_regAll r))
    | some p =>
      have hp : (m.index p : Int) = w := by simpa using List.find?_some hf
      have hrp : m.index p = m.index r := by exact_mod_cast hp.trans hw.symm
      rw [regAll_index_inj h hrp]

end Machine

end Sys2Proof
end

