-- ==== Sys2Proof/Laws/Word.lean ====
section
/-! SUPPORT. The words of a width: `wrap` gives one, words of a width of at least 1 are the range of 00_scope.md R10, and a word
is given back by its unsigned reading. -/

namespace Sys2Proof

theorem isWord_iff (xlen : Nat) (w : Int) : isWord xlen w = true ↔ wrap xlen w = w := by simp [isWord]

/-- What `wrap` gives is a word (R10). -/
@[simp] theorem isWord_wrap (xlen : Nat) (n : Int) : isWord xlen (wrap xlen n) = true := by
  simp [isWord, wrap, Int.bmod_bmod]

/-- Wrapping a word gives it back (R10). -/
theorem wrap_of_isWord {xlen : Nat} {w : Int} (h : isWord xlen w = true) : wrap xlen w = w := (isWord_iff xlen w).1 h

@[simp] theorem isWord_zero (xlen : Nat) : isWord xlen 0 = true := by simp [isWord, wrap]

/-- Words of a width of at least 1 are the range of R10. -/
theorem isWord_iff_range {xlen : Nat} (h : 1 ≤ xlen) (w : Int) :
    isWord xlen w = true ↔ -(2 ^ (xlen - 1)) ≤ w ∧ w < 2 ^ (xlen - 1) := by
  obtain ⟨k, rfl⟩ : ∃ k, xlen = k + 1 := ⟨xlen - 1, by omega⟩
  have hp : (2 ^ (k + 1) : Nat) = 2 * 2 ^ k := by rw [pow_succ, mul_comm]
  have hpos : 0 < 2 ^ k := Nat.two_pow_pos k
  rw [isWord_iff, wrap, Nat.add_sub_cancel]
  rw [show ((2 : Int) ^ k) = ((2 ^ k : Nat) : Int) by simp]
  generalize 2 ^ k = m at *
  rw [hp]
  constructor
  · intro hw
    have h1 := Int.le_bmod (x := w) (m := 2 * m) (by omega)
    have h2 := Int.bmod_lt (x := w) (m := 2 * m) (by omega)
    rw [hw] at h1 h2
    omega
  · intro hw
    exact Int.bmod_eq_of_le (by omega) (by omega)

/-- `wrap` is exact inside the range (R138). -/
theorem wrap_of_range {xlen : Nat} {n : Int} (h1 : -(2 ^ (xlen - 1)) ≤ n) (h2 : n < 2 ^ (xlen - 1)) (h : 1 ≤ xlen) :
    wrap xlen n = n := wrap_of_isWord ((isWord_iff_range h n).2 ⟨h1, h2⟩)

theorem uval_cast (xlen : Nat) (w : Word) : (uval xlen w : Int) = w % ((2 ^ xlen : Nat) : Int) := by
  have : (0 : Int) < ((2 ^ xlen : Nat) : Int) := by exact_mod_cast Nat.two_pow_pos xlen
  rw [uval, Int.toNat_of_nonneg (Int.emod_nonneg _ (by omega))]

theorem uval_lt (xlen : Nat) (w : Word) : uval xlen w < 2 ^ xlen := by
  have h := uval_cast xlen w
  have : (0 : Int) < ((2 ^ xlen : Nat) : Int) := by exact_mod_cast Nat.two_pow_pos xlen
  have := Int.emod_lt_of_pos w this
  omega

/-- Wrapping depends on an integer only modulo 2^`XLEN` (R10). -/
theorem wrap_eq_wrap_iff (xlen : Nat) (a b : Int) :
    wrap xlen a = wrap xlen b ↔ a % ((2 ^ xlen : Nat) : Int) = b % ((2 ^ xlen : Nat) : Int) :=
  ⟨fun h => by simpa only [wrap, Int.bmod_emod] using congrArg (· % ((2 ^ xlen : Nat) : Int)) h,
    fun h => by simpa only [wrap, Int.emod_bmod] using congrArg (Int.bmod · (2 ^ xlen)) h⟩

/-- The unsigned reading of a word names the word (R10). -/
@[simp] theorem wrap_uval (xlen : Nat) (w : Int) : wrap xlen (uval xlen w : Int) = wrap xlen w := by
  rw [wrap_eq_wrap_iff, uval_cast, Int.emod_emod_of_dvd _ (dvd_refl _)]

end Sys2Proof
end

