-- ==== Sys2Proof/Laws/Memory.lean ====
section
/-! SUPPORT. The memory array: what a write leaves at its own word and at every other (20_memory.md R60), that every memory
operation keeps the canonical form, the bound and the width, and that canonical memories that read alike are equal. -/

namespace Sys2Proof.Machine

theorem readCells_below (l : List MemCell) (lo a : Nat) (h : cellsFrom lo l = true) (ha : a < lo) : readCells l a = 0 := by
  induction l generalizing lo with
  | nil => rfl
  | cons c rest ih =>
    obtain ⟨b, w⟩ := c
    simp only [cellsFrom, Bool.and_eq_true, decide_eq_true_eq] at h
    have hab : a ≠ b := by omega
    simp only [readCells, if_neg hab]
    exact ih (b + 1) h.2 (by omega)

theorem cellsFrom_mono (l : List MemCell) (lo hi : Nat) (h : cellsFrom hi l = true) (hle : lo ≤ hi) :
    cellsFrom lo l = true := by
  cases l with
  | nil => rfl
  | cons c rest =>
    obtain ⟨b, w⟩ := c
    simp only [cellsFrom, Bool.and_eq_true, decide_eq_true_eq] at h ⊢
    exact ⟨⟨by omega, h.1.2⟩, h.2⟩

theorem cellsFrom_writeCells (l : List MemCell) (lo a : Nat) (v : Word) (h : cellsFrom lo l = true) (ha : lo ≤ a) :
    cellsFrom lo (writeCells l a v) = true := by
  induction l generalizing lo with
  | nil => by_cases hv : v = 0 <;> simp [writeCells, cellsFrom, hv, ha]
  | cons c rest ih =>
    obtain ⟨b, w⟩ := c
    simp only [cellsFrom, Bool.and_eq_true, decide_eq_true_eq] at h
    obtain ⟨⟨hlo, hw⟩, hrest⟩ := h
    by_cases hlt : a < b
    · by_cases hv : v = 0 <;> simp [writeCells, cellsFrom, hlt, hv, ha, hlo, hw, hrest]
    · by_cases hab : a = b
      · subst hab
        by_cases hv : v = 0
        · simpa [writeCells, hv] using cellsFrom_mono rest lo (a + 1) hrest (by omega)
        · simp [writeCells, cellsFrom, hv, ha, hrest]
      · have hrec := ih (b + 1) hrest (by omega)
        simp [writeCells, cellsFrom, hlt, hab, hlo, hw, hrec]

/-- A write keeps the canonical form. -/
theorem Memory.write_wf (m : Memory) (a : Nat) (v : Word) (h : m.wf = true) : (m.write a v).wf = true :=
  cellsFrom_writeCells m.cells 0 a v h (Nat.zero_le a)

theorem readCells_writeCells_other (l : List MemCell) (a q : Nat) (v : Word) (hq : q ≠ a) :
    readCells (writeCells l a v) q = readCells l q := by
  induction l with
  | nil =>
    have hqa : q ≠ a := hq
    by_cases hv : v = 0 <;> simp [writeCells, readCells, hv, hqa]
  | cons c rest ih =>
    obtain ⟨b, w⟩ := c
    by_cases hlt : a < b
    · by_cases hv : v = 0 <;> simp [writeCells, readCells, hlt, hv, hq]
    · by_cases hab : a = b
      · subst hab
        by_cases hv : v = 0 <;> simp [writeCells, readCells, hv, hq]
      · simp [writeCells, readCells, hlt, hab, ih]

/-- Every other word keeps its content, in any memory. -/
@[simp] theorem Memory.read_write_other (m : Memory) (a q : Nat) (v : Word) (hq : q ≠ a) :
    (m.write a v).read q = m.read q :=
  readCells_writeCells_other m.cells a q v hq

theorem readCells_writeCells_same (l : List MemCell) (lo a : Nat) (v : Word) (h : cellsFrom lo l = true) :
    readCells (writeCells l a v) a = v := by
  induction l generalizing lo with
  | nil => by_cases hv : v = 0 <;> simp [writeCells, readCells, hv]
  | cons c rest ih =>
    obtain ⟨b, w⟩ := c
    simp only [cellsFrom, Bool.and_eq_true, decide_eq_true_eq] at h
    by_cases hlt : a < b
    · have hab : a ≠ b := by omega
      by_cases hv : v = 0
      · simpa [writeCells, readCells, hlt, hv, hab] using readCells_below rest (b + 1) a h.2 (by omega)
      · simp [writeCells, readCells, hlt, hv]
    · by_cases hab : a = b
      · subst hab
        by_cases hv : v = 0
        · simpa [writeCells, hv] using readCells_below rest (a + 1) a h.2 (by omega)
        · simp [writeCells, readCells, hv]
      · simpa [writeCells, readCells, hlt, hab] using ih (b + 1) h.2

/-- A read after a write to the same word gives the word written. -/
theorem Memory.read_write_same (m : Memory) (a : Nat) (v : Word) (h : m.wf = true) : (m.write a v).read a = v :=
  readCells_writeCells_same m.cells 0 a v h

theorem readCells_eq_of_all (l k : List MemCell) (lo : Nat) (hl : cellsFrom lo l = true) (hk : cellsFrom lo k = true)
    (h : ∀ a, readCells l a = readCells k a) : l = k := by
  induction l generalizing k lo with
  | nil =>
    cases k with
    | nil => rfl
    | cons d ks =>
      obtain ⟨c, x⟩ := d
      simp only [cellsFrom, Bool.and_eq_true, decide_eq_true_eq] at hk
      have hc := h c
      simp only [readCells, if_true] at hc
      exact absurd hc.symm hk.1.2
  | cons d ls ih =>
    obtain ⟨b, w⟩ := d
    simp only [cellsFrom, Bool.and_eq_true, decide_eq_true_eq] at hl
    cases k with
    | nil =>
      have hb := h b
      simp only [readCells, if_true] at hb
      exact absurd hb hl.1.2
    | cons e ks =>
      obtain ⟨c, x⟩ := e
      simp only [cellsFrom, Bool.and_eq_true, decide_eq_true_eq] at hk
      have hbc : b = c := by
        rcases Nat.lt_trichotomy b c with hlt | heq | hgt
        · have hb := h b
          have hz := readCells_below ks (c + 1) b hk.2 (by omega)
          simp only [readCells, if_true, if_neg (show b ≠ c by omega), hz] at hb
          exact absurd hb hl.1.2
        · exact heq
        · have hc := h c
          have hz := readCells_below ls (b + 1) c hl.2 (by omega)
          simp only [readCells, if_true, if_neg (show c ≠ b by omega), hz] at hc
          exact absurd hc.symm hk.1.2
      subst hbc
      have hwx : w = x := by simpa [readCells] using h b
      subst hwx
      have hrest : ls = ks := by
        refine ih ks (b + 1) hl.2 hk.2 fun a => ?_
        by_cases hab : a = b
        · subst hab
          rw [readCells_below ls (a + 1) a hl.2 (by omega), readCells_below ks (a + 1) a hk.2 (by omega)]
        · simpa [readCells, hab] using h a
      rw [hrest]

theorem within_writeCells (l : List MemCell) (n a : Nat) (v : Word) (h : ∀ c ∈ l, c.1 < n) (ha : a < n) :
    ∀ c ∈ writeCells l a v, c.1 < n := by
  induction l with
  | nil => by_cases hv : v = 0 <;> simp [writeCells, hv, ha]
  | cons d rest ih =>
    obtain ⟨b, w⟩ := d
    have hb : b < n := h (b, w) (by simp)
    have hrest : ∀ c ∈ rest, c.1 < n := fun c hc => h c (by simp [hc])
    have hnew : ∀ l : List MemCell, (∀ c ∈ l, c.1 < n) → ∀ c ∈ (a, v) :: l, c.1 < n := by
      intro l hl c hc
      rcases List.mem_cons.1 hc with rfl | hc
      · exact ha
      · exact hl c hc
    unfold writeCells
    split
    · split
      · exact h
      · exact hnew _ h
    · split
      · split
        · exact hrest
        · exact hnew _ hrest
      · intro c hc
        rcases List.mem_cons.1 hc with rfl | hc
        · exact hb
        · exact ih hrest c hc

/-- A write inside the array keeps every listed address inside it. -/
theorem Memory.write_within (m : Memory) (n a : Nat) (v : Word) (h : m.within n = true) (ha : a < n) :
    (m.write a v).within n = true := by
  simp only [Memory.within, List.all_eq_true, decide_eq_true_eq] at h ⊢
  exact within_writeCells m.cells n a v h ha

theorem fits_writeCells (xlen : Nat) (l : List MemCell) (a : Nat) (v : Word) (h : ∀ c ∈ l, isWord xlen c.2 = true)
    (hv : isWord xlen v = true) : ∀ c ∈ writeCells l a v, isWord xlen c.2 = true := by
  induction l with
  | nil => by_cases hz : v = 0 <;> simp_all [writeCells]
  | cons d rest ih =>
    obtain ⟨b, w⟩ := d
    have hw : isWord xlen w = true := h (b, w) (by simp)
    have hrest : ∀ c ∈ rest, isWord xlen c.2 = true := fun c hc => h c (by simp [hc])
    have hnew : ∀ l : List MemCell, (∀ c ∈ l, isWord xlen c.2 = true) → ∀ c ∈ (a, v) :: l, isWord xlen c.2 = true := by
      intro l hl c hc
      rcases List.mem_cons.1 hc with rfl | hc
      · exact hv
      · exact hl c hc
    unfold writeCells
    split
    · split
      · exact h
      · exact hnew _ h
    · split
      · split
        · exact hrest
        · exact hnew _ hrest
      · intro c hc
        rcases List.mem_cons.1 hc with rfl | hc
        · exact hw
        · exact ih hrest c hc

/-- A write of a word keeps every word of memory one. -/
theorem Memory.write_fits (xlen : Nat) (m : Memory) (a : Nat) (v : Word) (h : m.fits xlen = true)
    (hv : isWord xlen v = true) : (m.write a v).fits xlen = true := by
  simp only [Memory.fits, List.all_eq_true] at h ⊢
  exact fits_writeCells xlen m.cells a v h hv

theorem readCells_fits (xlen : Nat) (l : List MemCell) (a : Nat) (h : ∀ c ∈ l, isWord xlen c.2 = true) :
    isWord xlen (readCells l a) = true := by
  induction l with
  | nil => exact isWord_zero xlen
  | cons d rest ih =>
    obtain ⟨b, w⟩ := d
    unfold readCells
    split
    · exact h (b, w) (by simp)
    · exact ih fun c hc => h c (by simp [hc])

/-- A read of a memory of words gives a word. -/
theorem Memory.read_fits (xlen : Nat) (m : Memory) (a : Nat) (h : m.fits xlen = true) : isWord xlen (m.read a) = true :=
  readCells_fits xlen m.cells a (by simpa [Memory.fits] using h)

section kernelWrites
variable (xlen n : Nat) (m : Memory) (ws : List MemCell)

/-- The kernel's writes keep whatever every single write of a word at an address of the array keeps. -/
theorem applyMemWrites_keeps (P : Memory → Prop)
    (step : ∀ k a v, P k → a < n → isWord xlen v = true → P (k.write a v)) (h : P m) : P (applyMemWrites xlen n m ws) := by
  induction ws generalizing m with
  | nil => exact h
  | cons w ws ih =>
    simp only [applyMemWrites, List.foldl_cons] at ih ⊢
    split
    · next hw => exact ih _ (step _ _ _ h hw (isWord_wrap xlen w.2))
    · exact ih _ h

/-- The kernel's writes keep the canonical form. -/
theorem applyMemWrites_wf (h : m.wf = true) : (applyMemWrites xlen n m ws).wf = true :=
  applyMemWrites_keeps xlen n m ws (fun k => k.wf = true) (fun k a v hk _ _ => k.write_wf a v hk) h

/-- The kernel's writes reach no word outside the array (R228). -/
theorem applyMemWrites_within (h : m.within n = true) : (applyMemWrites xlen n m ws).within n = true :=
  applyMemWrites_keeps xlen n m ws (fun k => k.within n = true) (fun k a v hk ha _ => k.write_within n a v hk ha) h

/-- The kernel writes words. -/
theorem applyMemWrites_fits (h : m.fits xlen = true) : (applyMemWrites xlen n m ws).fits xlen = true :=
  applyMemWrites_keeps xlen n m ws (fun k => k.fits xlen = true) (fun k a v hk _ hv => k.write_fits xlen a v hk hv) h

end kernelWrites

end Sys2Proof.Machine
end

