-- ==== Sys2Proof/Laws/Ops.lean ====
section
/-! SUPPORT. One lemma for each shared operation that says what it can do: the operand forms, the access primitives, the
translator's range, and above all the call of the kernel (60_exceptions.md R226 to R228). -/

namespace Sys2Proof.Machine

/-! ### The payload of a memory fault -/

/-- A stack fault carries the address itself wherever that is a word (R78). -/
theorem faultWord_of_isWord {xlen : Nat} {va : Int} (h : isWord xlen va = true) : faultWord xlen va = va := by
  simp [faultWord, h]

/-- What a memory fault carries is always a word (R220). -/
theorem faultWord_isWord (xlen : Nat) (va : Int) : isWord xlen (faultWord xlen va) = true := by
  unfold faultWord
  split
  · assumption
  · exact isWord_wrap _ _

/-! ### Operand forms -/

theorem withReg_some (s : State) (w : Word) (f : Reg → Result) {r : Reg} (h : s.regField w = some r) :
    s.withReg w f = f r := by simp [State.withReg, h]

theorem withReg_none (s : State) (w : Word) (f : Reg → Result) (h : s.regField w = none) :
    s.withReg w f = s.raise .illegalInstruction := by simp [State.withReg, h]

/-- A register field either names a register or raises `IllegalInstruction` (R105). -/
theorem withReg_cases (s : State) (w : Word) (f : Reg → Result) :
    (∃ r, s.regField w = some r ∧ s.withReg w f = f r) ∨
      (s.regField w = none ∧ s.withReg w f = .next (s.trap .illegalInstruction)) := by
  cases h : s.regField w with
  | some r => exact .inl ⟨r, rfl, withReg_some s w f h⟩
  | none => exact .inr ⟨rfl, withReg_none s w f h⟩

/-! ### The translator and the access primitives -/

theorem translateSegment_lt {s : State} {va : Int} {pa : Nat} (h : s.translateSegment va = some pa) :
    pa < s.cfg.memSize := by
  simp only [State.translateSegment] at h
  split_ifs at h with h1 h2
  cases h
  omega

theorem translatePaged_lt {s : State} {va : Int} {pa : Nat} (h : s.translatePaged va = some pa) :
    pa < s.cfg.memSize := by
  simp only [State.translatePaged] at h
  split_ifs at h with h1 h2 h3 h4
  cases h
  exact h4

/-- A translation that succeeds gives an address of the array (R67). -/
theorem translate_lt {s : State} {va : Int} {pa : Nat} (h : s.translate va = some pa) : pa < s.cfg.memSize := by
  unfold State.translate at h
  split at h
  · exact translateSegment_lt h
  · exact translatePaged_lt h

/-- What a segment-mode translation that succeeds says of its address (R68). -/
theorem translateSegment_window {s : State} {va : Int} {pa : Nat} (h : s.translateSegment va = some pa) :
    (pa : Int) = s.reg .base + va ∧ s.reg .base ≤ pa ∧ (pa : Int) ≤ s.reg .lim := by
  simp only [State.translateSegment] at h
  split_ifs at h with h1 h2
  cases h
  omega

/-- The two outcomes of `MemRead(va, 1)` (R76). -/
theorem memRead_cases (s : State) (va : Int) :
    (∃ pa, s.translate va = some pa ∧ s.memRead va = some (s.phys pa)) ∨
      (s.translate va = none ∧ s.memRead va = none) := by
  cases h : s.translate va <;> simp [State.memRead, h]

/-- The two outcomes of `MemWrite(va, 1, v)` (R76). -/
theorem memWrite_cases (s : State) (va : Int) (v : Word) :
    (∃ pa, s.translate va = some pa ∧ s.memWrite va v = some (s.setPhys pa v)) ∨
      (s.translate va = none ∧ s.memWrite va v = none) := by
  cases h : s.translate va <;> simp [State.memWrite, h]

/-! ### The call of the kernel -/

section call
variable (s : State) (c : TrapCall)

@[simp] theorem kernelReply_posts : (s.kernelReply c).2.posts = s.env.posts := by
  unfold State.kernelReply; split <;> rfl

@[simp] theorem kernelCall_answer : (s.kernelCall c).1 = (s.kernelReply c).1 := rfl
@[simp] theorem kernelCall_mbox : (s.kernelCall c).2.mbox = s.mbox := rfl
@[simp] theorem kernelCall_halted : (s.kernelCall c).2.halted = s.halted := rfl
@[simp] theorem kernelCall_pcHold : (s.kernelCall c).2.pcHold = s.pcHold := rfl
@[simp] theorem kernelCall_cfg : (s.kernelCall c).2.cfg = s.cfg := rfl
@[simp] theorem kernelCall_log : (s.kernelCall c).2.env.log = s.recordOf c :: s.env.log := rfl
@[simp] theorem kernelCall_posts : (s.kernelCall c).2.env.posts = s.env.posts := kernelReply_posts s c
@[simp] theorem kernelCall_ticks : (s.kernelCall c).2.ticks = s.ticks + (s.kernelReply c).1.addTicks := rfl
@[simp] theorem kernelCall_regs :
    (s.kernelCall c).2.regs = applyRegWrites s.cfg.xlen s.regs (s.kernelReply c).1.regs := rfl
@[simp] theorem kernelCall_mem :
    (s.kernelCall c).2.mem = applyMemWrites s.cfg.xlen s.cfg.memSize s.mem (s.kernelReply c).1.mem := rfl

/-- A call leaves only what the handler left, and the two bits that its response sets (R226, R227). -/
theorem trap_eq : s.trap c =
    { (s.kernelCall c).2 with
      halted := s.halted || (s.kernelReply c).1.halt
      pcHold := s.pcHold || (!(s.kernelReply c).1.halt && (s.kernelReply c).1.holdPc) } := by
  unfold State.trap
  cases h : (s.kernelReply c).1.halt <;> cases h' : (s.kernelReply c).1.holdPc <;>
    simp [h, h']
  all_goals rfl

/-- In sub-step (a) a call sets no `pc_hold` (R191). -/
theorem trapBeforeFetch_eq : s.trapBeforeFetch c =
    { (s.kernelCall c).2 with halted := s.halted || (s.kernelReply c).1.halt } := by
  unfold State.trapBeforeFetch
  cases h : (s.kernelReply c).1.halt <;> simp [h]
  all_goals rfl

@[simp] theorem trap_regs : (s.trap c).regs = applyRegWrites s.cfg.xlen s.regs (s.kernelReply c).1.regs := by rw [trap_eq]; rfl
@[simp] theorem trap_mem : (s.trap c).mem = applyMemWrites s.cfg.xlen s.cfg.memSize s.mem (s.kernelReply c).1.mem := by
  rw [trap_eq]; rfl
@[simp] theorem trap_ticks : (s.trap c).ticks = s.ticks + (s.kernelReply c).1.addTicks := by rw [trap_eq]; rfl
@[simp] theorem trap_mbox : (s.trap c).mbox = s.mbox := by rw [trap_eq]; rfl
@[simp] theorem trap_halted : (s.trap c).halted = (s.halted || (s.kernelReply c).1.halt) := by rw [trap_eq]
@[simp] theorem trap_pcHold :
    (s.trap c).pcHold = (s.pcHold || (!(s.kernelReply c).1.halt && (s.kernelReply c).1.holdPc)) := by rw [trap_eq]
@[simp] theorem trap_cfg : (s.trap c).cfg = s.cfg := by rw [trap_eq]; rfl
@[simp] theorem trap_log : (s.trap c).env.log = s.recordOf c :: s.env.log := by rw [trap_eq]; rfl
@[simp] theorem trap_posts : (s.trap c).env.posts = s.env.posts := by rw [trap_eq]; exact kernelReply_posts s c

@[simp] theorem trapBeforeFetch_regs :
    (s.trapBeforeFetch c).regs = applyRegWrites s.cfg.xlen s.regs (s.kernelReply c).1.regs := by rw [trapBeforeFetch_eq]; rfl
@[simp] theorem trapBeforeFetch_mem :
    (s.trapBeforeFetch c).mem = applyMemWrites s.cfg.xlen s.cfg.memSize s.mem (s.kernelReply c).1.mem := by
  rw [trapBeforeFetch_eq]; rfl
@[simp] theorem trapBeforeFetch_ticks : (s.trapBeforeFetch c).ticks = s.ticks + (s.kernelReply c).1.addTicks := by
  rw [trapBeforeFetch_eq]; rfl
@[simp] theorem trapBeforeFetch_mbox : (s.trapBeforeFetch c).mbox = s.mbox := by rw [trapBeforeFetch_eq]; rfl
@[simp] theorem trapBeforeFetch_halted :
    (s.trapBeforeFetch c).halted = (s.halted || (s.kernelReply c).1.halt) := by rw [trapBeforeFetch_eq]
@[simp] theorem trapBeforeFetch_pcHold : (s.trapBeforeFetch c).pcHold = s.pcHold := by rw [trapBeforeFetch_eq]; rfl
@[simp] theorem trapBeforeFetch_cfg : (s.trapBeforeFetch c).cfg = s.cfg := by rw [trapBeforeFetch_eq]; rfl
@[simp] theorem trapBeforeFetch_log : (s.trapBeforeFetch c).env.log = s.recordOf c :: s.env.log := by
  rw [trapBeforeFetch_eq]; rfl
@[simp] theorem trapBeforeFetch_posts : (s.trapBeforeFetch c).env.posts = s.env.posts := by
  rw [trapBeforeFetch_eq]; exact kernelReply_posts s c

end call

/-! ### The invariant -/

theorem Regs.fits_iff (xlen : Nat) (x : Regs) : x.fits xlen = true ↔ ∀ r, isWord xlen (x.get r) = true := by
  simp only [Regs.fits, List.all_eq_true]
  exact ⟨fun h r => h r (mem_regAll r), fun h r _ => h r⟩

/-- A register write of a word keeps every register a word. -/
theorem Regs.set_fits {xlen : Nat} {x : Regs} (h : x.fits xlen = true) (r : Reg) {v : Word} (hv : isWord xlen v = true) :
    (x.set r v).fits xlen = true := by
  rw [Regs.fits_iff] at h ⊢
  intro q
  by_cases hq : q = r
  · rw [hq, Regs.get_set_same]; exact hv
  · rw [Regs.get_set_other x r q v hq]; exact h q

/-- The kernel writes words into registers (R228). -/
theorem applyRegWrites_fits {xlen : Nat} (x : Regs) (ws : List (Reg × Word)) (h : x.fits xlen = true) :
    (applyRegWrites xlen x ws).fits xlen = true := by
  induction ws generalizing x with
  | nil => exact h
  | cons w ws ih => exact ih _ (Regs.set_fits h w.1 (isWord_wrap xlen w.2))

/-- The four parts of `State.wordsFit`. -/
theorem wordsFit_iff (s : State) : s.wordsFit = true ↔
    s.regs.fits s.cfg.xlen = true ∧ s.mem.fits s.cfg.xlen = true ∧
      (∀ ev, s.mbox = some ev → ev.fits s.cfg.xlen = true) ∧
      (∀ ev, some ev ∈ s.env.posts → ev.fits s.cfg.xlen = true) := by
  simp only [State.wordsFit, Bool.and_eq_true, List.all_eq_true, and_assoc]
  refine and_congr_right fun _ => and_congr_right fun _ => and_congr ?_ ?_
  · cases s.mbox <;> simp
  · exact ⟨fun h ev he => by simpa using h _ he, fun h p hp => by cases p with
      | none => rfl
      | some ev => exact h ev hp⟩

section inv
variable {s : State} (c : TrapCall)

theorem State.Inv.regs (h : s.Inv) : s.regs.fits s.cfg.xlen = true := ((wordsFit_iff s).1 h.words).1
theorem State.Inv.mem (h : s.Inv) : s.mem.fits s.cfg.xlen = true := ((wordsFit_iff s).1 h.words).2.1
theorem State.Inv.mbox (h : s.Inv) {ev : InterruptEvent} (he : s.mbox = some ev) : ev.fits s.cfg.xlen = true :=
  ((wordsFit_iff s).1 h.words).2.2.1 ev he
theorem State.Inv.posts (h : s.Inv) {ev : InterruptEvent} (he : some ev ∈ s.env.posts) : ev.fits s.cfg.xlen = true :=
  ((wordsFit_iff s).1 h.words).2.2.2 ev he

/-- A register of a state in the invariant holds a word. -/
theorem State.Inv.reg (h : s.Inv) (r : Reg) : isWord s.cfg.xlen (s.reg r) = true := (Regs.fits_iff _ _).1 h.regs r

/-- A change that keeps configuration and posts and leaves parts of the invariant's kind meets the invariant. -/
theorem State.Inv.of_parts {t : State} (h : s.Inv) (hc : t.cfg = s.cfg) (hw : t.mem.wf = true)
    (hi : t.mem.within s.cfg.memSize = true) (hr : t.regs.fits s.cfg.xlen = true) (hm : t.mem.fits s.cfg.xlen = true)
    (hb : ∀ ev, t.mbox = some ev → ev.fits s.cfg.xlen = true) (hp : ∀ ev, some ev ∈ t.env.posts → some ev ∈ s.env.posts) :
    t.Inv := by
  refine ⟨by rw [hc]; exact h.config, hw, by rw [hc]; exact hi, ?_⟩
  rw [wordsFit_iff, hc]
  exact ⟨hr, hm, hb, fun ev he => h.posts (hp ev he)⟩

/-- A call keeps the invariant, whatever the kernel answers. -/
theorem trap_inv (h : s.Inv) : (s.trap c).Inv :=
  h.of_parts (trap_cfg s c) (by rw [trap_mem]; exact applyMemWrites_wf _ _ _ _ h.canonical)
    (by rw [trap_mem]; exact applyMemWrites_within _ _ _ _ h.inArray)
    (by rw [trap_regs]; exact applyRegWrites_fits _ _ h.regs) (by rw [trap_mem]; exact applyMemWrites_fits _ _ _ _ h.mem)
    (fun ev he => h.mbox (by simpa using he)) fun ev he => by simpa using he

/-- So does a call of sub-step (a). -/
theorem trapBeforeFetch_inv (h : s.Inv) : (s.trapBeforeFetch c).Inv :=
  h.of_parts (trapBeforeFetch_cfg s c) (by rw [trapBeforeFetch_mem]; exact applyMemWrites_wf _ _ _ _ h.canonical)
    (by rw [trapBeforeFetch_mem]; exact applyMemWrites_within _ _ _ _ h.inArray)
    (by rw [trapBeforeFetch_regs]; exact applyRegWrites_fits _ _ h.regs)
    (by rw [trapBeforeFetch_mem]; exact applyMemWrites_fits _ _ _ _ h.mem)
    (fun ev he => h.mbox (by simpa using he)) fun ev he => by simpa using he

/-- A register write of a word keeps the invariant. -/
theorem setReg_inv (h : s.Inv) (r : Reg) {v : Word} (hv : isWord s.cfg.xlen v = true) : (s.setReg r v).Inv :=
  h.of_parts rfl h.canonical h.inArray (Regs.set_fits h.regs r hv) h.mem (fun _ he => h.mbox he) fun _ he => he

/-- A write of a word inside the array keeps the invariant. -/
theorem setPhys_inv (h : s.Inv) {pa : Nat} {v : Word} (hv : isWord s.cfg.xlen v = true) (hpa : pa < s.cfg.memSize) :
    (s.setPhys pa v).Inv :=
  h.of_parts rfl (s.mem.write_wf pa v h.canonical) (s.mem.write_within _ pa v h.inArray hpa) h.regs
    (s.mem.write_fits _ pa v h.mem hv) (fun _ he => h.mbox he) fun _ he => he

end inv

/-! ### Sub-steps -/

/-- What the device agents' turn does: nothing, an idle entry passes, or one post fills the empty slot (R242). -/
theorem deviceTurn_cases (s : State) :
    s.deviceTurn = s ∨
      (∃ rest, s.env.posts = none :: rest ∧ s.deviceTurn = { s with env := { s.env with posts := rest } }) ∨
      (∃ ev rest, s.env.posts = some ev :: rest ∧ s.mbox = none ∧
        s.deviceTurn = { s with mbox := some ev, env := { s.env with posts := rest } }) := by
  unfold State.deviceTurn
  split
  · exact .inl rfl
  · next rest h => exact .inr (.inl ⟨rest, h, rfl⟩)
  · next ev rest h =>
    cases hm : s.mbox with
    | some e => simp [State.post, hm]
    | none =>
      refine .inr (.inr ⟨ev, rest, h, rfl, ?_⟩)
      simp [State.post, hm]

/-- What the poll does: nothing on an empty slot, else one call with the slot already free (R191, R243). -/
theorem poll_cases (s : State) :
    (s.mbox = none ∧ s.poll = s) ∨
      (∃ ev, s.mbox = some ev ∧ s.poll = State.trapBeforeFetch { s with mbox := none } ev.call) := by
  cases hm : s.mbox with
  | some ev => exact .inr ⟨ev, rfl, by simp [State.poll, State.tryTake, hm]⟩
  | none =>
    refine .inl ⟨rfl, ?_⟩
    rcases s with ⟨_, _, _, _, _, _, _, _⟩
    simp_all [State.poll, State.tryTake]

/-- What sub-step (e) does: one tick, and the clock's call when it is due (R196). -/
theorem tick_cases (s : State) :
    s.tick = s.countTick ∨ s.tick = s.countTick.trap .clock := by
  unfold State.tick
  split
  · exact .inr rfl
  · exact .inl rfl

end Sys2Proof.Machine
end

