-- ==== Sys2Proof/Laws/PerInstr.lean ====
section
/-! SUPPORT. The per-instruction family Encoding: the encoder puts the mnemonic's own opcode word first and every operand
into the word that the format reads it from (30_encoding.md R102, R103). -/

namespace Sys2Proof.Laws.Encoding

/-- The words of an instruction carry its opcode word and give its operands back, under every numbering. -/
def Statement (i : Instr) : Prop :=
  ∀ m : OpcMap, (encode m i).w0 = m.word i.opcode ∧ i.opcode.operands (encode m i) = i

theorem set (rd imm : Word) : Statement (.set rd imm) := fun _ => ⟨rfl, rfl⟩
theorem add (rd rs1 rs2 : Word) : Statement (.add rd rs1 rs2) := fun _ => ⟨rfl, rfl⟩
theorem sub (rd rs1 rs2 : Word) : Statement (.sub rd rs1 rs2) := fun _ => ⟨rfl, rfl⟩
theorem mul (rd rs1 rs2 : Word) : Statement (.mul rd rs1 rs2) := fun _ => ⟨rfl, rfl⟩
theorem div (rd rs1 rs2 : Word) : Statement (.div rd rs1 rs2) := fun _ => ⟨rfl, rfl⟩
theorem copy (rd rs : Word) : Statement (.copy rd rs) := fun _ => ⟨rfl, rfl⟩
theorem branch (addr : Word) : Statement (.branch addr) := fun _ => ⟨rfl, rfl⟩
theorem bne (ra rb addr : Word) : Statement (.bne ra rb addr) := fun _ => ⟨rfl, rfl⟩
theorem blt (ra rb addr : Word) : Statement (.blt ra rb addr) := fun _ => ⟨rfl, rfl⟩
theorem pop (r : Word) : Statement (.pop r) := fun _ => ⟨rfl, rfl⟩
theorem push (r : Word) : Statement (.push r) := fun _ => ⟨rfl, rfl⟩
theorem load (rd ra : Word) : Statement (.load rd ra) := fun _ => ⟨rfl, rfl⟩
theorem save (rs ra : Word) : Statement (.save rs ra) := fun _ => ⟨rfl, rfl⟩
theorem trap : Statement .trap := fun _ => ⟨rfl, rfl⟩

end Sys2Proof.Laws.Encoding
end

