-- ==== Sys2Proof/Laws/Reset.lean ====
section
/-! SUPPORT. The memory of the state right after reset has the canonical form, and so has it after a word is placed in it. -/

namespace Sys2Proof.Machine

theorem reset_mem_wf : State.reset.mem.wf = true := rfl

theorem resetWith_mem_wf (c : Config) (e : Env) : (State.resetWith c e).mem.wf = true := rfl

theorem placeTuple_mem_wf (s : State) (pa : Nat) (t : Tuple) (h : s.mem.wf = true) :
    (s.placeTuple pa t).mem.wf = true :=
  Memory.write_wf _ _ _ (Memory.write_wf _ _ _ (Memory.write_wf _ _ _ (Memory.write_wf _ _ _ h)))

end Sys2Proof.Machine
end

