-- ==== Sys2Proof/Laws/Step.lean ====
section
/-! SUPPORT. What a step can do, said once: the inversion lemma of the cycle (50_engine_cycle.md R203), and what the parts
around the instruction leave alone. -/

namespace Sys2Proof.Machine

section deviceTurn
variable (s : State)

@[simp] theorem deviceTurn_regs : s.deviceTurn.regs = s.regs := by
  rcases deviceTurn_cases s with h | ⟨_, _, h⟩ | ⟨_, _, _, _, h⟩ <;> rw [h]
@[simp] theorem deviceTurn_mem : s.deviceTurn.mem = s.mem := by
  rcases deviceTurn_cases s with h | ⟨_, _, h⟩ | ⟨_, _, _, _, h⟩ <;> rw [h]
@[simp] theorem deviceTurn_ticks : s.deviceTurn.ticks = s.ticks := by
  rcases deviceTurn_cases s with h | ⟨_, _, h⟩ | ⟨_, _, _, _, h⟩ <;> rw [h]
@[simp] theorem deviceTurn_halted : s.deviceTurn.halted = s.halted := by
  rcases deviceTurn_cases s with h | ⟨_, _, h⟩ | ⟨_, _, _, _, h⟩ <;> rw [h]
@[simp] theorem deviceTurn_pcHold : s.deviceTurn.pcHold = s.pcHold := by
  rcases deviceTurn_cases s with h | ⟨_, _, h⟩ | ⟨_, _, _, _, h⟩ <;> rw [h]
@[simp] theorem deviceTurn_cfg : s.deviceTurn.cfg = s.cfg := by
  rcases deviceTurn_cases s with h | ⟨_, _, h⟩ | ⟨_, _, _, _, h⟩ <;> rw [h]
@[simp] theorem deviceTurn_log : s.deviceTurn.env.log = s.env.log := by
  rcases deviceTurn_cases s with h | ⟨_, _, h⟩ | ⟨_, _, _, _, h⟩ <;> rw [h]

@[simp] theorem deviceTurn_answers : s.deviceTurn.env.answers = s.env.answers := by
  rcases deviceTurn_cases s with h | ⟨_, _, h⟩ | ⟨_, _, _, _, h⟩ <;> rw [h]

/-- A turn of the device agents touches the slot and the posts still to come, and nothing else (R242). -/
theorem deviceTurn_eq_withSlot : s.deviceTurn = s.withSlot s.deviceTurn.mbox s.deviceTurn.env.posts := by
  rcases deviceTurn_cases s with h | ⟨_, _, h⟩ | ⟨_, _, _, _, h⟩ <;> rw [h] <;> rfl

end deviceTurn

@[simp] theorem poll_cfg (s : State) : s.poll.cfg = s.cfg := by
  rcases poll_cases s with ⟨_, h⟩ | ⟨_, _, h⟩ <;> rw [h]
  simp

@[simp] theorem tick_cfg (s : State) : s.tick.cfg = s.cfg := by
  rcases tick_cases s with h | h <;> rw [h]
  · simp
  · simp

@[simp] theorem atFetch_cfg (s : State) : s.atFetch.cfg = s.cfg := by simp [State.atFetch]

/-! The state of the fetch is the state after the poll but for the slot, the posts still to come and `pc_hold`. -/

theorem atFetch_regs (s : State) : s.atFetch.regs = s.deviceTurn.poll.regs := by simp [State.atFetch]
theorem atFetch_mem (s : State) : s.atFetch.mem = s.deviceTurn.poll.mem := by simp [State.atFetch]
theorem atFetch_ticks (s : State) : s.atFetch.ticks = s.deviceTurn.poll.ticks := by simp [State.atFetch]
theorem atFetch_halted (s : State) : s.atFetch.halted = s.deviceTurn.poll.halted := by simp [State.atFetch]
theorem atFetch_log (s : State) : s.atFetch.env.log = s.deviceTurn.poll.env.log := by
  simp [State.atFetch, clearHold_env]
theorem atFetch_answers (s : State) : s.atFetch.env.answers = s.deviceTurn.poll.env.answers := by
  simp [State.atFetch, clearHold_env]
@[simp] theorem atFetch_pcHold (s : State) : s.atFetch.pcHold = false := rfl

/-- What sub-steps (e) and (f) do (R196, R197, R199). -/
theorem finish_cases (s : State) :
    (s.halted = true ∧ s.finish = s) ∨ (s.halted = false ∧ s.tick.halted = true ∧ s.finish = s.tick) ∨
      (s.halted = false ∧ s.tick.halted = false ∧ s.finish = s.tick.advance) := by
  unfold State.finish
  cases h : s.halted <;> cases h' : s.tick.halted <;> simp

@[simp] theorem finish_cfg (s : State) : s.finish.cfg = s.cfg := by
  rcases finish_cases s with ⟨_, h⟩ | ⟨_, _, h⟩ | ⟨_, _, h⟩ <;> rw [h]
  · simp
  · simp

/-- A step that answers a next state, in a configuration of the block, is one of three: the device agents' turn of a
halted engine, a cycle that a `HALT` answer at the poll has ended, or a cycle that runs from its fetch to its end (R203). -/
theorem step_cases {s t : State} (h : step s = .next t) : configOk s.cfg = true ∧
    ((s.halted = true ∧ s.deviceCanMove = true ∧ t = s.deviceTurn) ∨
      (s.halted = false ∧ s.deviceTurn.poll.halted = true ∧ t = s.deviceTurn.poll.deviceTurn) ∨
      (s.halted = false ∧ s.deviceTurn.poll.halted = false ∧
        ∃ d, s.atFetch.fetchExecute = .next d ∧ t = d.finish)) := by
  unfold step machineStep at h
  split at h
  · next hc =>
    refine ⟨hc, ?_⟩
    split at h
    · next hh =>
      split at h
      · next hd => injection h with h; exact .inl ⟨hh, hd, h.symm⟩
      · cases h
    · next hh =>
      have hh' : s.halted = false := by simpa using hh
      unfold cycle at h
      dsimp only at h
      split at h
      · next hp => injection h with h; exact .inr (.inl ⟨hh', by simpa using hp, h.symm⟩)
      · next hp =>
        refine .inr (.inr ⟨hh', by simpa using hp, ?_⟩)
        split at h
        · next d hd => injection h with h; exact ⟨d, hd, h.symm⟩
        · cases h
        · cases h
  · cases h

/-- In the block of `State.reset` a table word is placed as its tuple in words of 32 bits (log 12). -/
theorem reset_withFetchWord (nbits w : Nat) :
    State.reset.withFetchWord nbits w = State.reset.placeAtFetch (Tuple.ofTableWord XLEN nbits w) := rfl

end Sys2Proof.Machine
end

