-- ==== Sys2Proof/Tests/Slice0.lean ====
section
/-! SUPPORT. Tests of the model on the vectors of 95_test_vectors.md (cited as V1 .. V96 and P5), words written out from
30_encoding.md, and for every obligation with hypotheses concrete values that meet them. -/

namespace Sys2Proof.Tests

open Sys2Proof Sys2Proof.Machine

/-! ### Builders -/

/-- A handler that writes nothing and answers (0, 0). -/
def contAnswer : KernelAnswer := ⟨[], [], 0, false, false⟩

/-- A handler that writes nothing and answers `HALT`. -/
def haltAnswer : KernelAnswer := ⟨[], [], 0, true, false⟩

/-- A handler that writes nothing and answers `HOLD_PC`. -/
def holdAnswer : KernelAnswer := ⟨[], [], 0, false, true⟩

/-- Put values into registers. -/
def withRegs (s : State) (ws : List (Reg × Word)) : State := { s with regs := applyRegWrites s.cfg.xlen s.regs ws }

/-- The answers that the next calls of the kernel return. -/
def withAnswers (s : State) (ks : List KernelAnswer) : State := { s with env := { s.env with answers := ks } }

/-- The common setup S of 95_test_vectors.md Part 2 with a kernel that continues. -/
def setupS : State := withAnswers (withRegs .reset [(.base, 100), (.lim, 199)]) [contAnswer, contAnswer, contAnswer]

/-- Setup S with register values and a tuple at virtual address `va`. -/
def running (ws : List (Reg × Word)) (va : Nat) (t : Tuple) : State := (withRegs setupS ws).placeTuple (100 + va) t

/-- Setup S with a tuple at PC 0. -/
def ready (t : Tuple) : State := running [] 0 t

/-- The step answers a next state that passes the check. -/
def after (s : State) (p : State → Bool) : Bool :=
  match step s with
  | .next t => p t
  | .fault _ => false
  | .refused _ => false

/-- The calls a state's log holds, newest first, without what the handler saw. -/
def calls (s : State) : List TrapCall := s.env.log.map TrapRecord.call

/-- The words a list of registers holds. -/
def regsAre (s : State) (ws : List (Reg × Word)) : Bool := ws.all fun w => s.reg w.1 == w.2

/-- The paged example of 95_test_vectors.md 2.7: page table 17, 25, 73, 40, 81, 129, 127, -1. -/
def pagedS : State :=
  { setupS with
    cfg := { Config.worked with mode := .paged }
    mem := { cells := [(0, 17), (1, 25), (2, 73), (3, 40), (4, 81), (5, 129), (6, 127), (7, -1)] } }

/-- A configuration of the window alone (V60 to V69). -/
def window (base lim : Word) : State := withRegs setupS [(.base, base), (.lim, lim)]

/-! ### Well-formedness: each register field is checked -/

theorem test_wf_set : (Instr.set 9 0).wellFormed = false ∧ (Instr.set 8 9).wellFormed = true := by decide
theorem test_wf_add : (Instr.add 9 0 0).wellFormed = false ∧ (Instr.add 0 9 0).wellFormed = false ∧
    (Instr.add 0 0 9).wellFormed = false ∧ (Instr.add 8 8 8).wellFormed = true := by decide
theorem test_wf_sub : (Instr.sub (-1) 0 0).wellFormed = false ∧ (Instr.sub 0 (-1) 0).wellFormed = false ∧
    (Instr.sub 0 0 (-1)).wellFormed = false := by decide
theorem test_wf_mul : (Instr.mul 9 0 0).wellFormed = false ∧ (Instr.mul 0 9 0).wellFormed = false ∧
    (Instr.mul 0 0 9).wellFormed = false := by decide
theorem test_wf_div : (Instr.div 9 0 0).wellFormed = false ∧ (Instr.div 0 9 0).wellFormed = false ∧
    (Instr.div 0 0 9).wellFormed = false := by decide
theorem test_wf_copy : (Instr.copy 9 0).wellFormed = false ∧ (Instr.copy 0 9).wellFormed = false := by decide
theorem test_wf_bne : (Instr.bne 9 0 0).wellFormed = false ∧ (Instr.bne 0 12 16).wellFormed = false ∧
    (Instr.bne 0 8 999).wellFormed = true := by decide
theorem test_wf_blt : (Instr.blt 9 0 0).wellFormed = false ∧ (Instr.blt 0 9 0).wellFormed = false := by decide
theorem test_wf_stack : (Instr.pop 9).wellFormed = false ∧ (Instr.push (-1)).wellFormed = false := by decide
theorem test_wf_memory : (Instr.load 9 0).wellFormed = false ∧ (Instr.load 0 9).wellFormed = false ∧
    (Instr.save 9 0).wellFormed = false ∧ (Instr.save 0 9).wellFormed = false := by decide
/-- One past the greatest word of the width, in a register field and in each form of immediate. -/
theorem test_wf_width : (Instr.push 2147483648).fits 32 = false ∧ (Instr.set 0 2147483648).fits 32 = false ∧
    (Instr.branch (-2147483649)).fits 32 = false ∧ (Instr.bne 0 0 2147483648).fits 32 = false ∧
    (Instr.blt 0 0 2147483648).fits 32 = false ∧ (Instr.blt 0 0 2147483647).fits 32 = true := by decide
theorem test_wf_free : (Instr.branch (-1)).wellFormed = true ∧ Instr.trap.wellFormed = true := by decide

/-! ### Decoding: the 128 bits written out, `w3 w2 w1 w0` from the left (R101) -/

theorem test_decode_set : decodeTableWord 128 0x00000000_00000005_00000000_00000000 = some (.set 0 5) := by decide
theorem test_decode_add : decodeTableWord 128 0x00000001_00000000_00000002_00000001 = some (.add 2 0 1) := by decide
theorem test_decode_sub : decodeTableWord 128 0x00000001_00000000_00000002_00000002 = some (.sub 2 0 1) := by decide
theorem test_decode_mul : decodeTableWord 128 0x00000001_00000000_00000002_00000003 = some (.mul 2 0 1) := by decide
theorem test_decode_div : decodeTableWord 128 0x00000001_00000000_00000002_00000004 = some (.div 2 0 1) := by decide
theorem test_decode_copy : decodeTableWord 128 0x00000000_00000000_00000001_00000005 = some (.copy 1 0) := by decide
theorem test_decode_branch : decodeTableWord 128 0x00000000_00000000_FFFFFFFC_00000006 = some (.branch (-4)) := by decide
theorem test_decode_bne : decodeTableWord 128 0x00000010_00000001_00000000_00000007 = some (.bne 0 1 16) := by decide
theorem test_decode_blt : decodeTableWord 128 0x00000010_00000002_00000001_00000008 = some (.blt 1 2 16) := by decide
theorem test_decode_pop : decodeTableWord 128 0x00000000_00000000_00000003_00000009 = some (.pop 3) := by decide
theorem test_decode_push : decodeTableWord 128 0x00000000_00000000_00000006_0000000A = some (.push 6) := by decide
theorem test_decode_load : decodeTableWord 128 0x00000000_00000001_00000002_0000000B = some (.load 2 1) := by decide
theorem test_decode_save : decodeTableWord 128 0x00000000_00000001_00000000_0000000C = some (.save 0 1) := by decide
theorem test_decode_trap : decodeTableWord 128 0x00000007_FFFFFFFB_00000063_0000000D = some .trap := by decide
theorem test_decode_unknown : decodeTableWord 128 14 = none ∧ decodeTableWord 128 99 = none ∧
    decodeTableWord 128 0xFFFFFFFF = none := by decide
/-- V59h: four words of 0 are `SET R0, 0` (R109). -/
theorem test_decode_zeros : decodeTableWord 128 0 = some (.set 0 0) := by decide

/-! ### One step of each instruction -/

/-- V1. -/
theorem test_set : after (running [] 0 ⟨0, 0, 5, 0⟩) (fun t => regsAre t [(.r0, 5), (.pc, 4)] && t.ticks == 1) = true := by
  decide
/-- V21: a plain write to PC is followed by the +4. -/
theorem test_set_pc : after (running [] 0 ⟨0, 5, 40, 0⟩) (fun t => regsAre t [(.pc, 44)]) = true := by decide
/-- V6: MAX + 1 is MIN. -/
theorem test_add_wraps : after (running [(.r0, 0x7FFFFFFF), (.r1, 1)] 0 ⟨1, 0, 0, 1⟩)
    (fun t => regsAre t [(.r0, -0x80000000), (.r1, 1), (.pc, 4)] && calls t == []) = true := by decide
/-- V23: a register index of 9 in `w2`. -/
theorem test_add_bad_index : after (running [(.r0, 3)] 0 ⟨1, 0, 9, 0⟩)
    (fun t => regsAre t [(.r0, 3), (.pc, 4)] && calls t == [.illegalInstruction]) = true := by decide
/-- V8: 7 - 35. -/
theorem test_sub : after (running [(.r0, 7), (.r1, 35)] 0 ⟨2, 2, 0, 1⟩)
    (fun t => regsAre t [(.r2, -28), (.r0, 7), (.r1, 35)]) = true := by decide
/-- V9: MIN - 1 is MAX. -/
theorem test_sub_wraps : after (running [(.r0, -0x80000000), (.r1, 1)] 0 ⟨2, 0, 0, 1⟩)
    (fun t => regsAre t [(.r0, 0x7FFFFFFF)]) = true := by decide
/-- V13. -/
theorem test_mul_wraps : after (running [(.r0, 123456789), (.r1, 1000)] 0 ⟨3, 2, 0, 1⟩)
    (fun t => regsAre t [(.r2, -1097262584)]) = true := by decide
/-- V10. -/
theorem test_mul_signed : after (running [(.r0, 6), (.r1, -7)] 0 ⟨3, 2, 0, 1⟩) (fun t => regsAre t [(.r2, -42)]) = true := by
  decide
/-- V15: -7 / 2 is -3. -/
theorem test_div_truncates : after (running [(.r0, -7), (.r1, 2), (.r2, 99)] 0 ⟨4, 2, 0, 1⟩)
    (fun t => regsAre t [(.r2, -3)]) = true := by decide
/-- V17: the destination keeps its word. -/
theorem test_div_by_zero : after (running [(.r0, 10), (.r2, 99)] 0 ⟨4, 2, 0, 1⟩)
    (fun t => regsAre t [(.r2, 99), (.pc, 4)] && calls t == [.divideByZero]) = true := by decide
/-- V12. -/
theorem test_copy : after (running [(.r0, 9)] 0 ⟨5, 1, 0, 0⟩) (fun t => regsAre t [(.r1, 9), (.r0, 9)]) = true := by decide
/-- V22: PC as a source is the instruction's own address. -/
theorem test_copy_pc : after (running [(.pc, 12)] 12 ⟨5, 0, 5, 0⟩) (fun t => regsAre t [(.r0, 12), (.pc, 16)]) = true := by
  decide
/-- V28: the last word of the window is a target. -/
theorem test_branch : after (running [] 0 ⟨6, 99, 0, 0⟩) (fun t => regsAre t [(.pc, 99)] && t.pcHold) = true := by decide
/-- V24: the handler sees PC at the branch. -/
theorem test_branch_fault : after (running [(.pc, 20)] 20 ⟨6, 100, 0, 0⟩)
    (fun t => regsAre t [(.pc, 24)] && t.env.log == [⟨.illegalMemoryAccess 100, 20, 0⟩]) = true := by decide
/-- V30. -/
theorem test_bne_taken : after (running [(.r0, 3), (.r1, 4)] 0 ⟨7, 0, 1, 16⟩) (fun t => regsAre t [(.pc, 16)]) = true := by
  decide
/-- V32: an untaken branch validates nothing. -/
theorem test_bne_untaken : after (running [] 0 ⟨7, 0, 0, 400⟩) (fun t => regsAre t [(.pc, 4)] && calls t == []) = true := by
  decide
/-- V37: -1 is less than 0. -/
theorem test_blt_signed : after (running [(.r1, -1)] 0 ⟨8, 1, 2, 16⟩) (fun t => regsAre t [(.pc, 16)]) = true := by decide
/-- V36: equal is not less. -/
theorem test_blt_equal : after (running [(.r1, 6), (.r2, 6)] 0 ⟨8, 1, 2, 16⟩) (fun t => regsAre t [(.pc, 4)]) = true := by
  decide
/-- V44: PUSH SP stores SP from before the increment. -/
theorem test_push_sp : after (running [(.sp, 2)] 0 ⟨10, 6, 0, 0⟩)
    (fun t => t.phys 197 == 2 && regsAre t [(.sp, 3), (.pc, 4)]) = true := by decide
/-- V42: a full stack. -/
theorem test_push_overflow : after (running [(.r0, 8), (.sp, 100)] 0 ⟨10, 0, 0, 0⟩)
    (fun t => regsAre t [(.sp, 100), (.pc, 4)] && t.phys 99 == 0 && calls t == [.illegalMemoryAccess (-1)]) = true := by
  decide
/-- V50: POP SP leaves the popped word. -/
theorem test_pop_sp : after ((running [(.sp, 1)] 0 ⟨9, 6, 0, 0⟩).setPhys 199 42) (fun t => regsAre t [(.sp, 42)]) = true := by
  decide
/-- V47: an empty stack is a silent no-op. -/
theorem test_pop_empty : after (running [(.r3, 9)] 0 ⟨9, 3, 0, 0⟩)
    (fun t => regsAre t [(.r3, 9), (.sp, 0), (.pc, 4)] && calls t == []) = true := by decide
/-- V55: the last word of the window. -/
theorem test_load : after ((running [(.r1, 99)] 0 ⟨11, 2, 1, 0⟩).setPhys 199 31) (fun t => regsAre t [(.r2, 31)]) = true := by
  decide
/-- V52: one word past it. -/
theorem test_load_fault : after (running [(.r1, 100), (.r2, 9)] 0 ⟨11, 2, 1, 0⟩)
    (fun t => regsAre t [(.r2, 9), (.pc, 4)] && calls t == [.illegalMemoryAccess 100]) = true := by decide
/-- V58. -/
theorem test_save : after (running [(.r0, 77), (.r1, 60)] 0 ⟨12, 0, 1, 0⟩)
    (fun t => t.phys 160 == 77 && t.phys 161 == 0 && t.phys 159 == 0) = true := by decide
/-- V53: one word before the window. -/
theorem test_save_fault : after (running [(.r0, 77), (.r1, -1)] 0 ⟨12, 0, 1, 0⟩)
    (fun t => t.phys 99 == 0 && calls t == [.illegalMemoryAccess (-1)]) = true := by decide
/-- V59c: answered `HALT`; the tick is not counted and PC stays. -/
theorem test_trap_halt : after (withAnswers (running [] 0 ⟨13, 0, 0, 0⟩) [haltAnswer])
    (fun t => t.halted && regsAre t [(.pc, 0)] && t.ticks == 0 && calls t == [.systemCall]) = true := by decide
/-- V87: the handler writes PC and does not hold. -/
theorem test_trap_writes_pc :
    after (withAnswers (running [(.pc, 8)] 8 ⟨13, 0, 0, 0⟩) [⟨[(.pc, 40)], [], 0, false, false⟩])
      (fun t => regsAre t [(.pc, 44)] && t.env.log == [⟨.systemCall, 8, 0⟩]) = true := by decide

/-! ### Illegal tuples, the translator, the page size -/

/-- V59g. -/
theorem test_illegal_opcode : after (running [] 0 ⟨14, 0, 0, 0⟩)
    (fun t => regsAre t [(.pc, 4)] && t.ticks == 1 && calls t == [.illegalInstruction]) = true := by decide
/-- V23c: the bad index comes before the zero divisor. -/
theorem test_illegal_first : after (running [] 0 ⟨4, 9, 0, 1⟩) (fun t => calls t == [.illegalInstruction]) = true := by decide
/-- V60 to V64. -/
theorem test_segment_window : (window 100 199).translate 0 = some 100 ∧ (window 100 199).translate 99 = some 199 ∧
    (window 100 199).translate 100 = none ∧ (window 100 199).translate (-1) = none ∧
    (window 100 199).translate 2147483647 = none := by decide
/-- V65 to V69. -/
theorem test_segment_edges : (window 0 255).translate 255 = some 255 ∧ (window 0 300).translate 256 = none ∧
    (window 150 149).translate 0 = none ∧ (window 50 50).translate 0 = some 50 ∧ (window (-10) 20).translate 10 = some 0 ∧
    (window (-10) 20).translate 5 = none := by decide
/-- V70 to V75. -/
theorem test_page_sizes : pageSize { Config.worked with pageSizeCfg := 20, minPageSize := 4 } = 16 ∧
    pageSize { Config.worked with pageSizeCfg := 3, minPageSize := 4 } = 4 ∧
    pageSize { Config.worked with pageSizeCfg := 16, minPageSize := 16 } = 16 ∧
    pageSize { Config.worked with pageSizeCfg := 1000, minPageSize := 8 } = 512 ∧
    pageSize { Config.worked with pageSizeCfg := 64, minPageSize := 100 } = 128 ∧
    offsetBits { Config.worked with pageSizeCfg := 1, minPageSize := 1 } = 0 := by decide
/-- V76 to V78c. -/
theorem test_paged_walk : pagedS.translate 0 = some 32 ∧ pagedS.translate 15 = some 47 ∧ pagedS.translate 16 = some 48 ∧
    pagedS.translate 37 = some 149 ∧ pagedS.translate 48 = none ∧ pagedS.translate 79 = some 175 := by decide
/-- V78d to V79c. -/
theorem test_paged_edges : pagedS.translate 80 = none ∧ pagedS.translate 96 = some 240 ∧ pagedS.translate 111 = some 255 ∧
    pagedS.translate 112 = none ∧ pagedS.translate 255 = none ∧ pagedS.translate 256 = none ∧
    pagedS.translate (-1) = none := by decide

/-! ### The cycle and the mailbox -/

/-- V80: a fetch fault, with decode and execute skipped. -/
theorem test_fetch_fault : after (withRegs setupS [(.pc, 100)])
    (fun t => regsAre t [(.pc, 104)] && t.ticks == 1 && calls t == [.illegalMemoryAccess 100]) = true := by decide
/-- V81b: words beyond LIM are fetched. -/
theorem test_fetch_past_lim : after (running [(.pc, 98)] 98 ⟨0, 2, 33, 0⟩)
    (fun t => regsAre t [(.r2, 33), (.pc, 102)] && calls t == []) = true := by decide
/-- V81: the fourth word lies outside memory. -/
theorem test_fetch_past_memory : (withRegs { setupS with cfg := { Config.worked with memSize := 200 } } [(.pc, 98)]).fetch =
    none := by decide
/-- V84: the clock boundary that a handler jumps over is lost. -/
theorem test_clock_lost :
    after { withAnswers (running [] 0 ⟨13, 0, 0, 0⟩) [⟨[], [], 2, false, false⟩] with
        ticks := 3, cfg := { Config.worked with clockPeriod := 4 } }
      (fun t => t.ticks == 6 && calls t == [.systemCall] && regsAre t [(.pc, 4)]) = true := by decide
/-- V88: a handler called at the poll may redirect the fetch; its `HOLD_PC` is ignored. -/
theorem test_poll_redirects :
    after { withAnswers (running [] 16 ⟨0, 0, 1, 0⟩) [⟨[(.pc, 16)], [], 0, false, true⟩] with
        mbox := some ⟨.readComplete, 3, 40, 1234⟩ }
      (fun t => regsAre t [(.r0, 1), (.pc, 20)] && t.mbox == none && calls t == [.ioReadComplete 3 40 1234]) = true := by
  decide
/-- V89: `HALT` at the poll. -/
theorem test_poll_halts :
    after { withAnswers setupS [haltAnswer] with mbox := some ⟨.writeComplete, 2, 7, 0⟩ }
      (fun t => t.halted && t.ticks == 0 && regsAre t [(.pc, 0)] && t.mbox == none) = true := by decide
/-- V92: the producer blocked at a full slot fills it once the engine has taken the event, which is the cycle's one delivery. -/
theorem test_blocked_post_fills_freed_slot :
    after { ready ⟨0, 0, 5, 0⟩ with
        mbox := some ⟨.writeComplete, 1, 1, 1⟩, env := { setupS.env with
          answers := [contAnswer], posts := [some ⟨.readComplete, 1, 2, 3⟩] } }
      (fun t => t.mbox == some ⟨.readComplete, 1, 2, 3⟩ && calls t == [.ioWriteComplete 1 1 1]) = true := by decide
/-- V89b: three calls in one cycle, the newest first in the log. -/
theorem test_three_calls :
    after { running [] 0 ⟨4, 2, 0, 1⟩ with
        cfg := { Config.worked with clockPeriod := 1 }, mbox := some ⟨.readComplete, 1, 2, 3⟩ }
      (fun t => calls t == [.clock, .divideByZero, .ioReadComplete 1 2 3]) = true := by decide
/-- P7, cycle 2: a clock handler that answers `HOLD_PC` keeps PC. -/
theorem test_clock_holds :
    after { withAnswers (running [(.pc, 4), (.r0, 1)] 4 ⟨1, 1, 1, 0⟩) [holdAnswer] with
        ticks := 1, cfg := { Config.worked with clockPeriod := 2 } }
      (fun t => regsAre t [(.r1, 1), (.pc, 4)] && t.env.log == [⟨.clock, 4, 2⟩]) = true := by decide
/-- V90 to V93. -/
theorem test_mailbox : (setupS.post ⟨.readComplete, 1, 2, 3⟩).isSome = true ∧
    ({ setupS with mbox := some ⟨.readComplete, 1, 2, 3⟩ }.post ⟨.writeComplete, 1, 2, 3⟩).isNone = true ∧
    setupS.tryTake.1 = none := by decide
/-- R202, R204, U14: the loop stops at the halt, with fuel left; the event that was posted in that cycle is in the slot and the
next producer is blocked. -/
theorem test_run_loop_stops :
    let s := withAnswers { ready ⟨13, 0, 0, 0⟩ with
      env := { setupS.env with posts := [none, some ⟨.readComplete, 1, 2, 3⟩, some ⟨.writeComplete, 4, 5, 6⟩] } } [haltAnswer]
    (match runLoop 4 s with
      | .next t => t.halted && t.mbox == some ⟨.readComplete, 1, 2, 3⟩ && t.env.posts.length == 1 && calls t == [.systemCall]
      | .fault _ => false
      | .refused _ => false) = true := by decide
/-- D1: in a block of another width the sum wraps at that width. -/
theorem test_add_wraps_at_16 :
    after { running [(.r0, 32767), (.r1, 1)] 0 ⟨1, 0, 0, 1⟩ with cfg := { Config.worked with xlen := 16 } }
      (fun t => regsAre t [(.r0, -32768), (.pc, 4)] && calls t == []) = true := by decide
/-- V96: a halted engine does not keep a device agent from posting once. -/
theorem test_halted_post :
    after { setupS with halted := true, env := { setupS.env with posts := [some ⟨.readComplete, 1, 2, 3⟩, none] } }
      (fun t => t.mbox == some ⟨.readComplete, 1, 2, 3⟩ && t.halted && t.ticks == 0) = true := by decide

/-! ### Witnesses: values that meet the hypotheses of each obligation, clause by clause -/

/-- A numbering other than the decided one, injective too. -/
def shiftedOpc : OpcMap := { OpcMap.standard with set := 14, trap := -1 }

/-- An event in the slot. -/
def event : InterruptEvent := ⟨.readComplete, 3, 40, 1234⟩

/-- The decided width, and widths of 5 (the least that holds the numberings) and 64. -/
theorem test_witness_DecodeOfEncodeIsIdentity : OpcMap.standard.injective = true ∧ shiftedOpc.injective = true ∧
    shiftedOpc.fits 32 = true ∧ OpcMap.standard.fits 5 = true ∧ OpcMap.standard.fits 64 = true ∧
    (Instr.set 8 (-16)).fits 5 = true ∧ (Instr.set 8 16).fits 5 = false ∧ (Instr.set 99 2147483647).fits 32 = true := by decide

theorem test_witness_DecodeIsTheClosedEnumeration : OpcMap.standard.injective = true ∧
    decode .standard ⟨13, 1, 1, 1⟩ = .ok .trap ∧ decode .standard ⟨14, 0, 0, 0⟩ = .error (.unknownOpcode 14) := by decide

theorem test_witness_UnusedWordsAreIgnored :
    (decode .standard ⟨0, 0, 5, 777⟩ = .ok (.set 0 5) ∧ decode .standard ⟨0, 0, 5, 0⟩ = .ok (.set 0 5)) ∧
    (usedWords .trap < 1 ∧ usedWords .push < 2 ∧ usedWords .load < 3) := by decide

theorem test_witness_UnusedWordsAreIgnored_premises :
    let t : Tuple := ⟨5, 1, 0, 0⟩
    let u : Tuple := ⟨5, 1, 0, -1⟩
    OpcMap.standard.injective = true ∧ t.w0 = OpcMap.standard.word .copy ∧ u.w0 = t.w0 ∧
    (1 ≤ usedWords .copy → u.w1 = t.w1) ∧ (2 ≤ usedWords .copy → u.w2 = t.w2) ∧ (3 ≤ usedWords .copy → u.w3 = t.w3) := by
  decide

theorem test_witness_RegisterFieldsNameRegisters : RegMap.standard.bijective = true ∧ registerAt .standard 8 = some .lim ∧
    registerAt .standard 9 = none ∧ registerAt .standard (-1) = none ∧ registerAt .standard 0 = some .r0 := by decide

theorem test_witness_BadRegisterFieldIsIllegal : setupS.cfg.regnum.bijective = true ∧
    (Instr.set 9 5).wellFormed = false ∧ (Instr.div 0 0 (-1)).wellFormed = false := by decide

/-- SET, PUSH and POP: the greatest index, and the two nearest words that are none. -/
theorem test_witness_SetWritesImmediate : setupS.regField 8 = some .lim ∧ setupS.regField 0 = some .r0 ∧
    setupS.regField 9 = none ∧ setupS.regField (-1) = none := by decide

/-- The clause on PC as a destination, of SET, COPY, LOAD and POP. -/
theorem test_witness_plain_pc_write : setupS.regField 5 = some .pc ∧
    (let t := setupS.setReg .pc 40
     t.halted = false ∧ t.pcHold = false ∧ (t.ticks + 1) % t.cfg.clockPeriod ≠ 0 ∧ t.finish.reg .pc = 44) := by decide

theorem test_witness_AddWritesWrappedSum :
    (setupS.regField 2 = some .r2 ∧ setupS.regField 0 = some .r0 ∧ setupS.regField 8 = some .lim) ∧
    setupS.regField 9 = none := by decide

theorem test_witness_SubWritesWrappedDifference :
    (setupS.regField 5 = some .pc ∧ setupS.regField 0 = some .r0 ∧ setupS.regField 8 = some .lim) ∧
    setupS.regField (-1) = none := by decide

theorem test_witness_MulWritesLowProduct :
    (setupS.regField 6 = some .sp ∧ setupS.regField 7 = some .base ∧ setupS.regField 8 = some .lim) ∧
    setupS.regField 9 = none := by decide

theorem test_witness_DivWritesTruncatedQuotient : setupS.regField 2 = some .r2 ∧ setupS.regField 0 = some .r0 ∧
    (setupS.regField 8 = some .lim ∧ setupS.reg .lim ≠ 0) ∧ (setupS.regField 1 = some .r1 ∧ setupS.reg .r1 = 0) ∧
    setupS.regField 9 = none := by decide

theorem test_witness_SdivRoundsTowardZero : (-1 : Int) ≠ 0 ∧ sdiv (-7) 2 = -3 ∧ sdiv 7 (-2) = -3 ∧ sdiv (-1) 2 = 0 := by
  decide

/-- The least width, and the ends of the range at width 32. -/
theorem test_witness_ArithmeticWraps : 1 ≤ 1 ∧ isWord 1 (-1) = true ∧ isWord 1 1 = false ∧ isWord 32 2147483647 = true ∧
    isWord 32 2147483648 = false ∧ isWord 32 (-2147483648) = true ∧ uval 32 (-1) = 4294967295 := by decide

theorem test_witness_CopyWritesSource : (setupS.regField 0 = some .r0 ∧ setupS.regField 8 = some .lim) ∧
    setupS.regField 9 = none := by decide

theorem test_witness_BranchTakesValidTarget : setupS.translate (99) = some 199 ∧
    setupS.translate (100) = none ∧ setupS.translate ((-1)) = none ∧ setupS.translate (0) = some 100 := by
  decide

theorem test_witness_BneBranchesOnDifference : setupS.regField 0 = some .r0 ∧ setupS.regField 1 = some .r1 ∧
    setupS.reg .r0 = setupS.reg .r1 ∧ setupS.regField 8 = some .lim ∧ setupS.reg .r0 ≠ setupS.reg .lim ∧
    setupS.translate (99) = some 199 ∧ setupS.translate (100) = none ∧ setupS.regField 9 = none := by decide

theorem test_witness_BltBranchesOnSignedLess : setupS.regField 0 = some .r0 ∧ setupS.regField 1 = some .r1 ∧
    setupS.reg .r1 ≤ setupS.reg .r0 ∧ setupS.regField 8 = some .lim ∧ setupS.reg .r0 < setupS.reg .lim ∧
    setupS.translate (99) = some 199 ∧ setupS.translate (100) = none ∧ setupS.regField 9 = none := by decide

/-- PUSH at the last free slot (SP 99), one past it (SP 100), and a slot whose address fits no word. -/
theorem test_witness_PushStoresAtStackSlot :
    (let s := withRegs setupS [(.sp, 99)]
     s.translate ((s.reg .lim - s.reg .base) - s.reg .sp) = some 100 ∧ s.mem.wf = true) ∧
    (let s := withRegs setupS [(.sp, 100)]
     s.translate ((s.reg .lim - s.reg .base) - s.reg .sp) = none ∧
       isWord s.cfg.xlen ((s.reg .lim - s.reg .base) - s.reg .sp) = true) ∧
    (let s := withRegs setupS [(.base, -0x80000000), (.lim, 0x7FFFFFFF)]
     s.translate ((s.reg .lim - s.reg .base) - s.reg .sp) = none ∧
       isWord s.cfg.xlen ((s.reg .lim - s.reg .base) - s.reg .sp) = false) ∧
    setupS.regField 0 = some .r0 ∧ setupS.regField 9 = none := by decide

/-- POP at SP 0, 1, 100 (the deepest slot) and 101 (one past it). -/
theorem test_witness_PopReadsStackSlot :
    (withRegs setupS [(.sp, 0)]).reg .sp ≤ 0 ∧ (withRegs setupS [(.sp, -3)]).reg .sp ≤ 0 ∧
    (let s := withRegs setupS [(.sp, 1)]
     0 < s.reg .sp ∧ s.translate ((s.reg .lim - s.reg .base) - (s.reg .sp - 1)) = some 199) ∧
    (let s := withRegs setupS [(.sp, 100)]
     0 < s.reg .sp ∧ s.translate ((s.reg .lim - s.reg .base) - (s.reg .sp - 1)) = some 100) ∧
    (let s := withRegs setupS [(.sp, 101)]
     0 < s.reg .sp ∧ s.translate ((s.reg .lim - s.reg .base) - (s.reg .sp - 1)) = none ∧
       isWord s.cfg.xlen ((s.reg .lim - s.reg .base) - (s.reg .sp - 1)) = true) ∧
    setupS.regField 3 = some .r3 ∧ setupS.regField 6 = some .sp ∧ setupS.regField 9 = none := by decide

/-- The premises of the round-trip law on one state, for the step that comes between as the identity. -/
def RoundTripPremises (s : State) (r : Word) (d : Reg) : Prop :=
  ∃ t, s.mem.wf = true ∧ s.regField r = some d ∧ d ≠ .pc ∧ 0 ≤ s.reg .sp ∧ s.reg .sp < 2 ^ (s.cfg.xlen - 1) - 1 ∧
    exec (.push r) s = .next t ∧ t.env.log = s.env.log ∧
    (s.cfg.mode = .paged → t.translate (s.stackVa (s.reg .sp)) = s.translate (s.stackVa (s.reg .sp)))

/-- V40, and PUSH SP at SP 0. -/
theorem test_witness_PushThenPopRestores :
    RoundTripPremises (withRegs setupS [(.r0, 5)]) 0 .r0 ∧ RoundTripPremises setupS 6 .sp :=
  ⟨⟨_, by decide, by decide, by decide, by decide, by decide, rfl, by decide, by decide⟩,
    ⟨_, by decide, by decide, by decide, by decide, by decide, rfl, by decide, by decide⟩⟩

/-- The greatest SP of the law, in a window at address 0 that reaches down that far. -/
theorem test_witness_PushThenPopRestores_deepest :
    RoundTripPremises (withRegs setupS [(.base, 0), (.lim, 0x7FFFFFFF), (.sp, 0x7FFFFFFE)]) 0 .r0 :=
  ⟨_, by decide, by decide, by decide, by decide, by decide, rfl, by decide, by decide⟩

/-- P6: paged mode with the stack at virtual address 79. -/
theorem test_witness_PushThenPopRestores_paged :
    RoundTripPremises (withRegs pagedS [(.base, 0), (.lim, 79), (.r0, 5)]) 0 .r0 :=
  ⟨_, by decide, by decide, by decide, by decide, by decide, rfl, by decide, by decide⟩

theorem test_witness_LoadReadsTranslatedWord :
    (let s := withRegs setupS [(.r1, 99)]
     s.regField 2 = some .r2 ∧ s.regField 1 = some .r1 ∧ s.translate (s.reg .r1) = some 199) ∧
    (let s := withRegs setupS [(.r1, 100)]
     s.translate (s.reg .r1) = none) ∧ setupS.regField 9 = none := by decide

theorem test_witness_SaveStoresTranslatedWord :
    (let s := withRegs setupS [(.r1, 0)]
     s.regField 0 = some .r0 ∧ s.regField 1 = some .r1 ∧ s.translate (s.reg .r1) = some 100 ∧ s.mem.wf = true) ∧
    (let s := withRegs setupS [(.r1, -1)]
     s.translate (s.reg .r1) = none) ∧ setupS.regField 9 = none := by decide

/-- A SAVE onto the third word of the tuple that the fetch then reads. -/
theorem test_witness_FetchSeesTheStore :
    let s := withRegs setupS [(.r0, 77), (.r1, 62)]
    ∃ t, s.mem.wf = true ∧ s.regField 0 = some .r0 ∧ s.regField 1 = some .r1 ∧ s.translate (s.reg .r1) = some 162 ∧
      exec (.save 0 1) s = .next t ∧ t.translate 60 = some 160 ∧ 160 + 3 < t.cfg.memSize :=
  ⟨_, by decide, by decide, by decide, by decide, rfl, by decide, by decide⟩

/-- One instruction for each of the kinds that an instruction can raise. -/
theorem test_witness_TrapKindsBelongToInstructions :
    setupS.cfg.regnum.bijective = true ∧
    (∃ t, exec (.div 0 0 1) setupS = .next t ∧ t.env.log = setupS.recordOf .divideByZero :: setupS.env.log) ∧
    (∃ t, exec .trap setupS = .next t ∧ t.env.log = setupS.recordOf .systemCall :: setupS.env.log) ∧
    (∃ t, exec (.set 9 0) setupS = .next t ∧ t.env.log = setupS.recordOf .illegalInstruction :: setupS.env.log) ∧
    (∃ t, exec (.branch 100) setupS = .next t ∧
      t.env.log = setupS.recordOf (.illegalMemoryAccess 100) :: setupS.env.log) :=
  ⟨by decide, ⟨_, rfl, by decide⟩, ⟨_, rfl, by decide⟩, ⟨_, rfl, by decide⟩, ⟨_, rfl, by decide⟩⟩

theorem test_witness_KernelIsConfinedToItsPort :
    { setupS with halted := true }.halted = true ∧ { setupS with pcHold := true }.pcHold = true ∧
    setupS.cfg.memSize ≤ 256 := by decide

theorem test_witness_ScriptedAnswerTakesEffect :
    (withAnswers setupS [haltAnswer]).env.answers = haltAnswer :: [] ∧ (withAnswers setupS [haltAnswer]).mem.wf = true ∧
    255 < setupS.cfg.memSize := by decide

theorem test_witness_FreeKernelAnswerTakesEffect :
    ∃ k next, State.reset.env.answers = [] ∧
      Config.kernel State.reset.env.kappa .systemCall
        { regs := State.reset.regs, mem := State.reset.mem, ticks := State.reset.ticks } = (k, next) ∧
      State.reset.mem.wf = true :=
  ⟨_, _, rfl, rfl, rfl⟩

theorem test_witness_SegmentTranslation : setupS.cfg.mode = .segment ∧ setupS.translate 99 = some 199 := by decide

theorem test_witness_PagedTranslation : pagedS.cfg.mode = .paged ∧ pagedS.translate (111 : Nat) = some 255 ∧
    (-1 : Int) < 0 := by decide

theorem test_witness_TranslationStaysInTheArray : (-1 : Int) < 0 ∧ setupS.translate 99 = some 199 ∧
    pagedS.translate 111 = some 255 := by decide

theorem test_witness_PageSizeDerivation : configOk pagedS.cfg = true ∧ pagedS.cfg.mode = .paged ∧ 1 ≤ Config.worked.pageSizeCfg ∧ 1 ≤ Config.worked.minPageSize ∧
    1 ≤ { Config.worked with pageSizeCfg := 1, minPageSize := 1 }.pageSizeCfg := by decide

/-- The last fetch that stays in the array (first word 252), and the first that does not (253). -/
theorem test_witness_FetchReadsFourPhysicalWords :
    ((window 0 255).translate 252 = some 252 ∧ 252 + 3 < (window 0 255).cfg.memSize ∧
      (window 0 255).fetchAt 252 = some ⟨0, 0, 0, 0⟩) ∧ (window 0 255).fetchAt 253 = none := by decide

theorem test_witness_MemoryReadsBackWrites : setupS.mem.wf = true ∧ pagedS.mem.wf = true ∧
    (ready ⟨10, 6, 0, 0⟩).mem.wf = true := by decide

theorem test_witness_MailboxHoldsOneEvent : setupS.mbox = none ∧ { setupS with mbox := some event }.mbox ≠ none ∧
    setupS.post event = some { setupS with mbox := some event } := by decide

theorem test_witness_PollDispatchesTheEvent : setupS.mbox = none ∧ setupS.mem.wf = true ∧
    { setupS with mbox := some event }.mbox = some ⟨.readComplete, 3, 40, 1234⟩ ∧
    { setupS with mbox := some event }.env.answers = contAnswer :: [contAnswer, contAnswer] := by decide

/-- A post that finds the slot empty with one to come after it, one that finds it full, one at the turn after the take, and none. -/
theorem test_witness_PostsAreDeliveredOnceInOrder :
    (let s := { ready ⟨0, 0, 5, 0⟩ with env := { setupS.env with posts := [some event, some event] } }
     s.halted = false ∧ s.env.posts = some event :: [some event] ∧ s.mbox = none ∧ (∃ t, step s = .next t)) ∧
    (let s := { ready ⟨0, 0, 5, 0⟩ with
        mbox := some ⟨.writeComplete, 1, 1, 1⟩, env := { setupS.env with posts := [some event] } }
     s.halted = false ∧ s.env.posts = some event :: [] ∧ s.mbox = some ⟨.writeComplete, 1, 1, 1⟩ ∧
       (∃ t, step s = .next t)) ∧
    (let s := { ready ⟨0, 0, 5, 0⟩ with env := { setupS.env with posts := [none, some event] } }
     s.halted = false ∧ s.env.posts = none :: [some event] ∧ (∃ t, step s = .next t)) ∧
    (ready ⟨0, 0, 5, 0⟩).halted = false ∧ (ready ⟨0, 0, 5, 0⟩).env.posts = [] ∧ ∃ t, step (ready ⟨0, 0, 5, 0⟩) = .next t :=
  ⟨⟨by decide, by decide, by decide, ⟨_, rfl⟩⟩, ⟨by decide, by decide, by decide, ⟨_, rfl⟩⟩, ⟨by decide, by decide, ⟨_, rfl⟩⟩,
    by decide, by decide, ⟨_, rfl⟩⟩

theorem test_witness_StepRunsDecodedInstruction :
    let s := ready ⟨13, 0, 0, 0⟩
    s.reachesFetch ∧ s.atFetch.fetch = some ⟨13, 0, 0, 0⟩ ∧ decode s.cfg.opc ⟨13, 0, 0, 0⟩ = .ok .trap ∧
    s.mbox = none ∧ s.env.posts = [] := by
  refine ⟨⟨?_, ?_, ?_⟩, ?_, ?_, ?_, ?_⟩ <;> decide

theorem test_witness_UnknownOpcodeRaisesIllegal :
    let s := ready ⟨14, 0, 0, 0⟩
    s.reachesFetch ∧ s.atFetch.fetch = some ⟨14, 0, 0, 0⟩ ∧ ∀ o, s.cfg.opc.word o ≠ 14 := by
  refine ⟨⟨?_, ?_, ?_⟩, ?_, fun o => ?_⟩ <;> first | decide | (cases o <;> decide)

theorem test_witness_UnknownOpcodeRaisesIllegal_register :
    let s := ready ⟨1, 0, 9, 0⟩
    s.reachesFetch ∧ s.atFetch.fetch = some ⟨1, 0, 9, 0⟩ ∧ decode s.cfg.opc ⟨1, 0, 9, 0⟩ = .ok (.add 0 9 0) ∧
    (Instr.add 0 9 0).wellFormed = false := by
  refine ⟨⟨?_, ?_, ?_⟩, ?_, ?_, ?_⟩ <;> decide

theorem test_witness_FetchFaultSkipsExecution :
    let s := withRegs setupS [(.pc, 100)]
    s.reachesFetch ∧ s.atFetch.fetch = none := by
  refine ⟨⟨?_, ?_, ?_⟩, ?_⟩ <;> decide

/-- One tick before the clock is due, and one later. -/
theorem test_witness_TickCallsClockWhenDue :
    (let s := { setupS with ticks := 999 }
     (s.ticks + 1) % s.cfg.clockPeriod = 0) ∧
    (let s := { setupS with ticks := 1000 }
     (s.ticks + 1) % s.cfg.clockPeriod ≠ 0) := by decide

theorem test_witness_FinishAdvancesUnlessHeldOrHalted :
    { setupS with halted := true }.halted = true ∧
    (let s := withAnswers { setupS with ticks := 999 } [haltAnswer]
     s.halted = false ∧ s.tick.halted = true) ∧
    (let s := { setupS with pcHold := true }
     s.halted = false ∧ s.tick.pcHold = true) ∧
    (setupS.halted = false ∧ setupS.tick.halted = false ∧ setupS.tick.pcHold = false) := by decide

theorem test_witness_HaltAtThePollEndsTheCycle :
    let s := { withAnswers setupS [haltAnswer] with mbox := some event }
    configOk s.cfg = true ∧ s.halted = false ∧ s.deviceTurn.poll.halted = true := by decide

theorem test_witness_HaltedEnginePerformsNothing :
    (let s := { setupS with halted := true }
     configOk s.cfg = true ∧ s.halted = true ∧ s.deviceCanMove = false) ∧
    (let s := { setupS with halted := true, env := { setupS.env with posts := [some event] } }
     configOk s.cfg = true ∧ s.halted = true ∧ s.deviceCanMove = true ∧ s.mbox = none) ∧
    (let s := { setupS with halted := true, mbox := some event, env := { setupS.env with posts := [none] } }
     configOk s.cfg = true ∧ s.halted = true ∧ s.deviceCanMove = true ∧ s.mbox ≠ none) := by decide

/-- V89b: a step with all three calls. -/
theorem test_witness_AtMostThreeKernelCalls :
    ∃ t, step { ready ⟨4, 2, 0, 1⟩ with cfg := { Config.worked with clockPeriod := 1 }, mbox := some event } = .next t ∧
      t.env.log.length = 3 :=
  ⟨_, rfl, by decide⟩

theorem test_witness_HandlerAnswerDecidesThePc :
    (let s := withAnswers setupS [haltAnswer]
     s.halted = false ∧ s.pcHold = false ∧ s.env.answers = haltAnswer :: [] ∧
       (s.ticks + haltAnswer.addTicks + 1) % s.cfg.clockPeriod ≠ 0 ∧ haltAnswer.halt = true) ∧
    (let s := withAnswers { setupS with ticks := 998 } [holdAnswer]
     s.halted = false ∧ s.pcHold = false ∧ s.env.answers = holdAnswer :: [] ∧
       (s.ticks + holdAnswer.addTicks + 1) % s.cfg.clockPeriod ≠ 0 ∧ holdAnswer.halt = false ∧ holdAnswer.holdPc = true) ∧
    (let s := withAnswers setupS [contAnswer]
     s.env.answers = contAnswer :: [] ∧ (s.ticks + contAnswer.addTicks + 1) % s.cfg.clockPeriod ≠ 0 ∧
       contAnswer.halt = false ∧ contAnswer.holdPc = false) := by decide

theorem test_witness_SetPcContinuesFourFurther :
    let s := ready ⟨0, 5, 40, 0⟩
    configOk s.cfg = true ∧ s.halted = false ∧ s.mbox = none ∧ s.env.posts = [] ∧ s.regField 5 = some .pc ∧
    s.fetch = some ⟨s.cfg.opc.set, 5, 40, 0⟩ ∧ (s.ticks + 1) % s.cfg.clockPeriod ≠ 0 := by decide

/-- V28: the last target of the window. -/
theorem test_witness_TakenBranchLandsOnTarget :
    let s := ready ⟨6, 99, 0, 0⟩
    configOk s.cfg = true ∧ s.halted = false ∧ s.mbox = none ∧ s.env.posts = [] ∧
    s.fetch = some ⟨s.cfg.opc.branch, 99, 0, 0⟩ ∧ s.translate (99) = some 199 ∧
    (s.ticks + 1) % s.cfg.clockPeriod ≠ 0 := by decide

/-- The widths next to the least that holds the opcodes and the register indices, and the decided one. -/
theorem test_config_widths : configOk { Config.worked with xlen := 5, memSize := 16 } = true ∧
    configOk { Config.worked with xlen := 4, memSize := 8 } = false ∧
    configOk { Config.worked with xlen := 64, memSize := 2 ^ 40 } = true := by decide

theorem test_witness_ResetMeetsInvariant : event.fits 32 = true ∧ configOk .worked = true ∧ configOk pagedS.cfg = true ∧
    configOk { Config.worked with memSize := 0 } = false ∧ configOk { Config.worked with memSize := 2 ^ 31 } = true := by
  decide

/-- A state in the invariant whose step stores a word. -/
theorem test_witness_StepKeepsInvariant : (ready ⟨10, 7, 0, 0⟩).Inv ∧ ∃ t, step (ready ⟨10, 7, 0, 0⟩) = .next t ∧
    t.phys 199 = 100 := by
  refine ⟨⟨?_, ?_, ?_, ?_⟩, _, rfl, ?_⟩ <;> decide

theorem test_witness_ConfigurationIsFixed : ∃ t, step (ready ⟨13, 0, 0, 0⟩) = .next t ∧ t.env.log.length = 1 :=
  ⟨_, rfl, by decide⟩

theorem test_witness_TicksAreMonotonic : ∃ t, step (ready ⟨13, 0, 0, 0⟩) = .next t ∧ t.halted = false :=
  ⟨_, rfl, by decide⟩

theorem test_witness_OnlyTheKernelHalts :
    (∃ t, step { setupS with halted := true, env := { setupS.env with posts := [some event] } } = .next t) ∧
    (∃ t, step (withAnswers (ready ⟨13, 0, 0, 0⟩) [haltAnswer]) = .next t ∧ t.halted = true) ∧
    (∃ t, step (ready ⟨13, 0, 0, 0⟩) = .next t ∧ (ready ⟨13, 0, 0, 0⟩).halted = false ∧
      3 ≤ (ready ⟨13, 0, 0, 0⟩).env.answers.length ∧ ∀ k ∈ (ready ⟨13, 0, 0, 0⟩).env.answers, k.halt = false) :=
  ⟨⟨_, rfl⟩, ⟨_, rfl, by decide⟩, ⟨_, rfl, by decide, by decide, by decide⟩⟩

theorem test_witness_RunLoopStepsWhileNotHalted : { setupS with halted := true }.halted = true ∧ setupS.halted = false ∧
    configOk setupS.cfg = true ∧ (∃ t, step setupS = .next t ∧ runLoop 1 setupS = .next t) :=
  ⟨by decide, by decide, by decide, _, rfl, rfl⟩

/-- A TRAP that the kernel answers with `HALT` ends the run in its first step, with an event in the slot where a device posted in
that cycle. -/
theorem test_witness_RunEndsAtTheFirstHalt :
    (∃ e, (withAnswers (ready ⟨13, 0, 0, 0⟩) [haltAnswer]).halted = false ∧
      runEndsIn (withAnswers (ready ⟨13, 0, 0, 0⟩) [haltAnswer]) e) ∧
    (let s := withAnswers { ready ⟨13, 0, 0, 0⟩ with env := { setupS.env with posts := [none, some event] } } [haltAnswer]
     s.halted = false ∧ s.env.posts = none :: some event :: [] ∧ ∃ t, step s = .next t ∧ t.halted = true) :=
  ⟨⟨_, by decide, 1, rfl, by decide⟩, by decide, by decide, _, rfl, by decide⟩

/-- A store at the last word of the window, with the words next to the window as the ones said of. -/
theorem test_witness_SegmentModeConfinesStores :
    let s := ready ⟨10, 7, 0, 0⟩
    ∃ t, s.cfg.mode = .segment ∧ step s = .next t ∧ t.env.log = s.env.log ∧ ((99 : Nat) : Int) < s.reg .base ∧
      s.reg .lim < ((200 : Nat) : Int) :=
  ⟨_, by decide, rfl, by decide, by decide, by decide⟩

theorem test_witness_PlacedWordRunsNext : decodeTableWord 128 0x00000000_00000000_00000006_0000000A = some (.push 6) ∧
    decodeTableWord 128 0x00000007_FFFFFFFB_00000063_0000000D = some .trap := by decide

/-- The reset state's memory is canonical. -/
theorem test_reset_memory : State.reset.mem.wf = true ∧ State.reset.reg .pc = 0 := by decide

end Sys2Proof.Tests
end

section
/-! PROOFS. What the operand forms, a register write and the end of a plain cycle do, for every instruction that uses them:
register fields taken together (30_encoding.md R104, R105), the frame of a register write (10_state.md R20), and the advance
that follows a write to PC (R24; 50_engine_cycle.md R197). -/

namespace Sys2Proof.Machine

/-! ### Register fields taken together -/

section fields
variable {s : State} {w1 w2 w3 : Word} {d a b : Reg}

/-- Two fields that name registers give both to the rest of the instruction (R105). -/
theorem withReg_two (f : Reg → Reg → Result) (hd : s.regField w1 = some d) (ha : s.regField w2 = some a) :
    (s.withReg w1 fun d => s.withReg w2 fun a => f d a) = f d a :=
  (withReg_some s w1 _ hd).trans (withReg_some s w2 _ ha)

/-- Three fields that name registers give all three to the rest of the instruction (R105). -/
theorem withReg_three (f : Reg → Reg → Reg → Result) (hd : s.regField w1 = some d) (ha : s.regField w2 = some a)
    (hb : s.regField w3 = some b) :
    (s.withReg w1 fun d => s.withReg w2 fun a => s.withReg w3 fun b => f d a b) = f d a b :=
  (withReg_two _ hd ha).trans (withReg_some s w3 _ hb)

/-- One bad field of two raises `IllegalInstruction` from the unchanged state, whatever the other is (R105). -/
theorem withReg_two_illegal (f : Reg → Reg → Result) (h : s.regField w1 = none ∨ s.regField w2 = none) :
    (s.withReg w1 fun d => s.withReg w2 fun a => f d a) = .next (s.trap .illegalInstruction) := by
  rcases withReg_cases s w1 fun d => s.withReg w2 fun a => f d a with ⟨d, hd, heq⟩ | ⟨_, heq⟩
  · have ha : s.regField w2 = none := by simpa [hd] using h
    exact heq.trans (withReg_none s w2 _ ha)
  · exact heq

/-- One bad field of three raises `IllegalInstruction` from the unchanged state, whatever the others are (R105). -/
theorem withReg_three_illegal (f : Reg → Reg → Reg → Result)
    (h : s.regField w1 = none ∨ s.regField w2 = none ∨ s.regField w3 = none) :
    (s.withReg w1 fun d => s.withReg w2 fun a => s.withReg w3 fun b => f d a b) =
      .next (s.trap .illegalInstruction) := by
  rcases withReg_cases s w1 fun d => s.withReg w2 fun a => s.withReg w3 fun b => f d a b with ⟨d, hd, heq⟩ | ⟨_, heq⟩
  · have hab : s.regField w2 = none ∨ s.regField w3 = none := by simpa [hd] using h
    exact heq.trans (withReg_two_illegal (f d) hab)
  · exact heq

end fields

/-! ### A register write, and the end of a plain cycle -/

/-- A register write changes nothing but its register (R20). -/
theorem setReg_regsOnly (s : State) (d : Reg) (v : Word) : regsOnly [d] s (s.setReg d v) := by
  refine ⟨fun r hr => ?_, fun _ => rfl, ⟨rfl, rfl, rfl, rfl, rfl⟩, rfl⟩
  exact setReg_reg_other s d v r (by simpa using hr)

/-- With the clock not due, sub-step (e) only counts (R196). -/
theorem tick_of_not_due {s : State} (h : (s.ticks + 1) % s.cfg.clockPeriod ≠ 0) : s.tick = s.countTick := by
  simp [State.tick, State.clockDue, h]

/-- With no halt and the clock not due, sub-steps (e) and (f) are the count and the advance (R196, R197). -/
theorem finish_of_not_due {s : State} (hh : s.halted = false) (hc : (s.ticks + 1) % s.cfg.clockPeriod ≠ 0) :
    s.finish = s.countTick.advance := by
  have htick : s.tick = s.countTick := tick_of_not_due hc
  rcases finish_cases s with ⟨h, _⟩ | ⟨_, h, _⟩ | ⟨_, _, h⟩
  · simp [hh] at h
  · simp [htick, hh] at h
  · rw [h, htick]

/-- With `pc_hold` clear, sub-step (f) adds 4 to PC (R197). -/
theorem advance_of_pcHold_clear {s : State} (h : s.pcHold = false) :
    s.advance = s.setReg .pc (wrap s.cfg.xlen (s.reg .pc + 4)) := by
  simp [State.advance, h]

/-- From a state whose PC holds `v`, a plain end of the cycle leaves PC at `v` + 4 (R24, R197). -/
theorem plainPcWrite_of_reg_pc {t : State} {v : Int} (h : t.reg .pc = v) : plainPcWrite t v := by
  intro hh hp hc
  rw [finish_of_not_due hh hc, advance_of_pcHold_clear (s := t.countTick) hp, setReg_reg_same, countTick_cfg,
    countTick_reg, h]

end Sys2Proof.Machine
end

section
/-! PROOFS. SET, ADD, SUB, MUL, DIV and COPY (40_arith_move.md): what each meaning answers when its fields name registers and
when one does not, and the statements about them. -/

namespace Sys2Proof.Machine

section
variable {s : State} {rd rs1 rs2 : Word} {d a b : Reg}

/-! ### DIV -/

theorem execDiv_of_ne_zero (hd : s.regField rd = some d) (ha : s.regField rs1 = some a) (hb : s.regField rs2 = some b)
    (h : s.reg b ≠ 0) :
    execDiv rd rs1 rs2 s = .next (s.setReg d (wrap s.cfg.xlen (sdiv (s.reg a) (s.reg b)))) :=
  (withReg_three _ hd ha hb).trans (if_neg h)

theorem execDiv_of_eq_zero (hd : s.regField rd = some d) (ha : s.regField rs1 = some a) (hb : s.regField rs2 = some b)
    (h : s.reg b = 0) : execDiv rd rs1 rs2 s = .next (s.trap .divideByZero) :=
  (withReg_three _ hd ha hb).trans (if_pos h)

theorem execDiv_illegal (h : s.regField rd = none ∨ s.regField rs1 = none ∨ s.regField rs2 = none) :
    execDiv rd rs1 rs2 s = .next (s.trap .illegalInstruction) :=
  withReg_three_illegal _ h

/-! ### ADD, SUB and MUL in their shared form -/

/-- With three registers the wrapped result of the operation is written to the first, and nothing else changes (R131 to
R133). -/
theorem arith_writes (op : Int → Int → Int) (hd : s.regField rd = some d) (ha : s.regField rs1 = some a)
    (hb : s.regField rs2 = some b) :
    ∃ t, s.arith op rd rs1 rs2 = .next t ∧ t.reg d = wrap s.cfg.xlen (op (s.reg a) (s.reg b)) ∧ regsOnly [d] s t :=
  ⟨_, withReg_three _ hd ha hb, setReg_reg_same s d _, setReg_regsOnly s d _⟩

theorem arith_illegal (op : Int → Int → Int)
    (h : s.regField rd = none ∨ s.regField rs1 = none ∨ s.regField rs2 = none) :
    s.arith op rd rs1 rs2 = .next (s.trap .illegalInstruction) :=
  withReg_three_illegal _ h

/-! ### SET and COPY -/

theorem execSet_of_regField (imm : Word) (hd : s.regField rd = some d) : execSet rd imm s = .next (s.setReg d imm) :=
  withReg_some s rd _ hd

theorem execSet_illegal (imm : Word) (h : s.regField rd = none) :
    execSet rd imm s = .next (s.trap .illegalInstruction) :=
  withReg_none s rd _ h

theorem execCopy_of_regFields (hd : s.regField rd = some d) (ha : s.regField rs1 = some a) :
    execCopy rd rs1 s = .next (s.setReg d (s.reg a)) :=
  withReg_two _ hd ha

theorem execCopy_illegal (h : s.regField rd = none ∨ s.regField rs1 = none) :
    execCopy rd rs1 s = .next (s.trap .illegalInstruction) :=
  withReg_two_illegal _ h

end

/-! ### The statements -/

/-- Settles O11: with three registers the divisor decides between the write of the quotient and the trap, and the fields come
before the divisor. -/
theorem divWritesTruncatedQuotient : Obligations.DivWritesTruncatedQuotient := by
  intro s rd rs1 rs2
  refine ⟨rfl, fun d a b hd ha hb => ⟨fun hne => ?_, execDiv_of_eq_zero hd ha hb⟩, execDiv_illegal⟩
  exact ⟨_, execDiv_of_ne_zero hd ha hb hne, setReg_reg_same s d _, setReg_regsOnly s d _⟩

/-- Settles O7: the one effect is the register write, and a PC so written is what the advance starts from. -/
theorem setWritesImmediate : Obligations.SetWritesImmediate := by
  intro s rd imm
  refine ⟨rfl, fun d hd => ?_, execSet_illegal imm⟩
  refine ⟨_, execSet_of_regField imm hd, setReg_reg_same s d imm, setReg_regsOnly s d imm, ?_⟩
  rintro rfl
  exact plainPcWrite_of_reg_pc (setReg_reg_same s .pc imm)

/-- Settles O8: the shared form of the three operations, with the sum. -/
theorem addWritesWrappedSum : Obligations.AddWritesWrappedSum :=
  fun _ _ _ _ => ⟨rfl, fun _ _ _ => arith_writes (fun x y => x + y), arith_illegal _⟩

/-- Settles O9: the shared form of the three operations, with the second register subtracted from the first. -/
theorem subWritesWrappedDifference : Obligations.SubWritesWrappedDifference :=
  fun _ _ _ _ => ⟨rfl, fun _ _ _ => arith_writes (fun x y => x - y), arith_illegal _⟩

/-- Settles O10: the shared form of the three operations, with the product. -/
theorem mulWritesLowProduct : Obligations.MulWritesLowProduct :=
  fun _ _ _ _ => ⟨rfl, fun _ _ _ => arith_writes (fun x y => x * y), arith_illegal _⟩

/-- Settles O14: the one effect is the register write of the word read before it, and a PC so written is what the advance
starts from. -/
theorem copyWritesSource : Obligations.CopyWritesSource := by
  intro s rd rs
  refine ⟨rfl, fun d a hd ha => ?_, execCopy_illegal⟩
  refine ⟨_, execCopy_of_regFields hd ha, setReg_reg_same s d _, setReg_regsOnly s d _, ?_⟩
  rintro rfl
  exact plainPcWrite_of_reg_pc (setReg_reg_same s .pc _)

end Sys2Proof.Machine
end

section
/-! PROOFS. BRANCH (41_branch.md): the two outcomes of `TakeBranch`, which BRANCH, BNE and BLT share, and the statement about
BRANCH. -/

namespace Sys2Proof.Machine

section takeBranch
variable {s : State} {addr : Word}

/-- A target that translates is written to PC as it stands, whatever address it translates to, and `pc_hold` is set (R150). -/
theorem takeBranch_of_translate_some {pa : Nat} (h : s.translate addr = some pa) :
    s.takeBranch addr = .next { s.setReg .pc addr with pcHold := true } := by
  simp [State.takeBranch, h]

/-- A target that does not translate raises the memory fault that carries it, from the unchanged state (R150). -/
theorem takeBranch_of_translate_none (h : s.translate addr = none) :
    s.takeBranch addr = .next (s.trap (.illegalMemoryAccess addr)) := by
  simp [State.takeBranch, h, State.raiseMemory, State.raise]

/-- A branch taken to a target that translates leaves PC at the target and `pc_hold` set, and changes nothing else: its
frame is that of the write to PC. -/
theorem takeBranch_lands {pa : Nat} (h : s.translate addr = some pa) :
    ∃ t, s.takeBranch addr = .next t ∧ t.reg .pc = addr ∧ t.pcHold = true ∧ sameRegsBut [.pc] s t ∧ sameMem s t ∧
      sameControl s t := by
  obtain ⟨hregs, hmem, hcontrol, -⟩ := setReg_regsOnly s .pc addr
  exact ⟨_, takeBranch_of_translate_some h, setReg_reg_same s .pc addr, rfl, hregs, hmem, hcontrol⟩

end takeBranch

/-- Settles O15: BRANCH is `TakeBranch` of its one operand, and whether that translates decides between its two outcomes. -/
theorem branchTakesValidTarget : Obligations.BranchTakesValidTarget :=
  fun _ _ => ⟨rfl, fun _ => takeBranch_lands, takeBranch_of_translate_none⟩

end Sys2Proof.Machine
end

section
/-! PROOFS. LOAD and SAVE (43_load_store.md): the access primitives by the outcome of the translation (20_memory.md R76), the
frame of a store (R60), what each meaning answers, and the statements about them. -/

namespace Sys2Proof.Machine

/-! ### The access primitives, and the frame of a store -/

section access
variable {s : State} {va : Int}

theorem memRead_of_translate_some {pa : Nat} (h : s.translate va = some pa) : s.memRead va = some (s.phys pa) := by
  simp [State.memRead, h]

theorem memRead_of_translate_none (h : s.translate va = none) : s.memRead va = none := by
  simp [State.memRead, h]

theorem memWrite_of_translate_some {pa : Nat} (v : Word) (h : s.translate va = some pa) :
    s.memWrite va v = some (s.setPhys pa v) := by
  simp [State.memWrite, h]

theorem memWrite_of_translate_none (v : Word) (h : s.translate va = none) : s.memWrite va v = none := by
  simp [State.memWrite, h]

end access

/-- A store changes nothing but its word (R60). -/
theorem setPhys_storeOnly (s : State) (pa : Nat) (v : Word) : storeOnly [] pa s (s.setPhys pa v) :=
  ⟨fun _ _ => rfl, fun a ha => Memory.read_write_other s.mem pa a v ha, ⟨rfl, rfl, rfl, rfl, rfl⟩, rfl⟩

/-! ### The meanings -/

section
variable {s : State} {w ra : Word} {d a : Reg}

theorem execLoad_of_translate_some {pa : Nat} (hd : s.regField w = some d) (ha : s.regField ra = some a)
    (h : s.translate (s.reg a) = some pa) : execLoad w ra s = .next (s.setReg d (s.mem.read pa)) := by
  refine (withReg_two _ hd ha).trans ?_
  rw [memRead_of_translate_some h]
  rfl

theorem execLoad_of_translate_none (hd : s.regField w = some d) (ha : s.regField ra = some a)
    (h : s.translate (s.reg a) = none) : execLoad w ra s = .next (s.trap (.illegalMemoryAccess (s.reg a))) := by
  refine (withReg_two _ hd ha).trans ?_
  rw [memRead_of_translate_none h]
  rfl

theorem execLoad_illegal (h : s.regField w = none ∨ s.regField ra = none) :
    execLoad w ra s = .next (s.trap .illegalInstruction) :=
  withReg_two_illegal _ h

theorem execSave_of_translate_some {pa : Nat} (hd : s.regField w = some d) (ha : s.regField ra = some a)
    (h : s.translate (s.reg a) = some pa) : execSave w ra s = .next (s.setPhys pa (s.reg d)) := by
  refine (withReg_two _ hd ha).trans ?_
  rw [memWrite_of_translate_some _ h]

theorem execSave_of_translate_none (hd : s.regField w = some d) (ha : s.regField ra = some a)
    (h : s.translate (s.reg a) = none) : execSave w ra s = .next (s.trap (.illegalMemoryAccess (s.reg a))) := by
  refine (withReg_two _ hd ha).trans ?_
  rw [memWrite_of_translate_none _ h]
  rfl

theorem execSave_illegal (h : s.regField w = none ∨ s.regField ra = none) :
    execSave w ra s = .next (s.trap .illegalInstruction) :=
  withReg_two_illegal _ h

end

/-! ### The statements -/

/-- Settles O21: whether the word in the second register translates decides between the write of the word read there and the
trap, and a PC so loaded is what the advance starts from. -/
theorem loadReadsTranslatedWord : Obligations.LoadReadsTranslatedWord := by
  intro s rd ra
  refine ⟨rfl, fun d a hd ha => ⟨fun pa hpa => ?_, execLoad_of_translate_none hd ha⟩, execLoad_illegal⟩
  refine ⟨_, execLoad_of_translate_some hd ha hpa, setReg_reg_same s d _, setReg_regsOnly s d _, ?_⟩
  rintro rfl
  exact plainPcWrite_of_reg_pc (setReg_reg_same s .pc _)

/-- Settles O22: whether the word in the second register translates decides between the store, with its frame and its
read-after-write, and the trap. -/
theorem saveStoresTranslatedWord : Obligations.SaveStoresTranslatedWord := by
  intro s rs ra
  refine ⟨rfl, fun d a hd ha => ⟨fun pa hpa => ?_, execSave_of_translate_none hd ha⟩, execSave_illegal⟩
  exact ⟨_, execSave_of_translate_some hd ha hpa, setPhys_storeOnly s pa _, Memory.read_write_same s.mem pa _⟩

end Sys2Proof.Machine
end

section
/-! PROOFS. A tuple that is no instruction, or that has a bad register field (44_trap.md R181): what the fetch, decode and
execute sub-steps answer on it (30_encoding.md R105, R108), the cycle from its fetch on (50_engine_cycle.md R203), and the
statement about the step. -/

namespace Sys2Proof.Machine

/-! ### A register field outside 0..8 -/

theorem index_le_of_bijective {m : RegMap} (h : m.bijective = true) (r : Reg) : m.index r ≤ 8 := by
  simp only [RegMap.bijective, Bool.and_eq_true, List.all_map, List.all_eq_true] at h
  obtain ⟨-, hall⟩ := h
  simpa using hall r (mem_regAll r)

/-- Under a numbering of the registers by 0..8, a word outside that range names no register (R105). -/
theorem registerAt_eq_none_of_bad_index {m : RegMap} (h : m.bijective = true) {w : Word} (hw : regIndexOk w = false) :
    registerAt m w = none := by
  refine Option.eq_none_iff_forall_ne_some.2 fun r hr => ?_
  have hindex : (m.index r : Int) = w := (registerAt_eq_some h w r).1 hr
  have hle : m.index r ≤ 8 := index_le_of_bijective h r
  have hok : regIndexOk w = true := by
    simp only [regIndexOk, Bool.and_eq_true, decide_eq_true_eq]
    omega
  simp [hok] at hw

/-- An instruction that is not well formed has a field that names no register (R105). -/
theorem exists_regField_none_of_not_wellFormed {s : State} {i : Instr} (h : s.cfg.regnum.bijective = true)
    (hi : i.wellFormed = false) : ∃ w ∈ i.regFields, s.regField w = none := by
  obtain ⟨w, hmem, hw⟩ := List.all_eq_false.1 hi
  exact ⟨w, hmem, registerAt_eq_none_of_bad_index h (by simpa using hw)⟩

/-- Every instruction with a field that names no register raises `IllegalInstruction` from the unchanged state, before any
other effect (R105, R235). -/
theorem exec_illegal {s : State} {i : Instr} (h : ∃ w ∈ i.regFields, s.regField w = none) :
    exec i s = .next (s.trap .illegalInstruction) := by
  cases i <;> simp only [Instr.regFields, List.mem_cons, List.not_mem_nil, or_false, false_and, exists_false,
    exists_eq_or_imp, exists_eq_left] at h
  case set rd imm => exact execSet_illegal imm h
  case add => exact arith_illegal _ h
  case sub => exact arith_illegal _ h
  case mul => exact arith_illegal _ h
  case div => exact execDiv_illegal h
  case copy => exact execCopy_illegal h
  case bne => exact withReg_two_illegal _ h
  case blt => exact withReg_two_illegal _ h
  case pop => exact withReg_none s _ _ h
  case push => exact withReg_none s _ _ h
  case load => exact execLoad_illegal h
  case save => exact execSave_illegal h

/-! ### Sub-steps (b), (c) and (d) on a fetched tuple -/

section fetched
variable {s : State} {w : Tuple}

/-- A fetched tuple that carries no opcode word raises `IllegalInstruction` from the unchanged state (R108, R181). -/
theorem fetchExecute_of_unknownOpcode (hf : s.fetch = some w) (hw : ∀ o, s.cfg.opc.word o ≠ w.w0) :
    s.fetchExecute = .next (s.trap .illegalInstruction) := by
  have hlookup : s.cfg.opc.lookup w.w0 = none := (OpcMap.lookup_eq_none _ _).2 hw
  simp [State.fetchExecute, hf, decode, hlookup, State.raise]

/-- A fetched tuple that decodes runs the meaning of its instruction (R194). -/
theorem fetchExecute_of_decode {i : Instr} (hf : s.fetch = some w) (hi : decode s.cfg.opc w = .ok i) :
    s.fetchExecute = exec i s := by
  simp [State.fetchExecute, hf, hi]

end fetched

/-! ### The cycle from its fetch on -/

theorem configOk_regnum_bijective {c : Config} (h : configOk c = true) : c.regnum.bijective = true := by
  simp only [configOk, Bool.and_eq_true] at h
  obtain ⟨⟨-, hregnum⟩, -⟩ := h
  exact hregnum

/-- Where the cycle reaches its fetch and sub-steps (b) to (d) answer a next state, the step goes on from it with sub-steps
(e) and (f) (R203). -/
theorem step_of_fetchExecute_next {s d : State} (hs : s.reachesFetch) (hd : s.atFetch.fetchExecute = .next d) :
    step s = .next d.finish := by
  obtain ⟨hconfig, hhalted, hpoll⟩ := hs
  have hfetch : s.deviceTurn.poll.deviceTurn.clearHold.fetchExecute = .next d := hd
  simp [step, machineStep, cycle, hconfig, hhalted, hpoll, hfetch]

/-! ### The statement -/

/-- Settles O41: both kinds of tuple make sub-steps (b) to (d) answer the trap from the state of the fetch, an unknown opcode
at decoding and a bad register field at execution, and the cycle goes on from there. -/
theorem unknownOpcodeRaisesIllegal : Obligations.UnknownOpcodeRaisesIllegal := by
  intro s w hs hf hw
  refine step_of_fetchExecute_next hs ?_
  rcases hw with hunknown | ⟨i, hdecode, hbad⟩
  · exact fetchExecute_of_unknownOpcode hf (by simpa using hunknown)
  · have hbij : s.atFetch.cfg.regnum.bijective = true := by simpa using configOk_regnum_bijective hs.1
    calc s.atFetch.fetchExecute
      _ = exec i s.atFetch := fetchExecute_of_decode hf (by simpa using hdecode)
      _ = .next (s.atFetch.trap .illegalInstruction) := exec_illegal (exists_regField_none_of_not_wellFormed hbij hbad)

end Sys2Proof.Machine
end

section
/-! PROOFS. The encoding (30_encoding.md): decoding by the opcode word, the four words as one value of 4 times `XLEN` bits, and
the statements about the decoder and the encoder. -/

namespace Sys2Proof

open Machine (usedWords)

/-! ### Decoding by the opcode word -/

/-- The encoder puts the opcode word first and every operand where the format reads it (R102, R103). -/
theorem encode_words (i : Instr) : Laws.Encoding.Statement i := by
  cases i <;> exact fun _ => ⟨rfl, rfl⟩

theorem decode_of_word {m : OpcMap} (h : m.injective = true) {t : Tuple} {o : Opcode} (ho : m.word o = t.w0) :
    decode m t = .ok (o.operands t) := by
  simp [decode, (OpcMap.lookup_eq_some h t.w0 o).2 ho]

theorem decode_of_unknown {m : OpcMap} {t : Tuple} (h : ∀ o, m.word o ≠ t.w0) :
    decode m t = .error (.unknownOpcode t.w0) := by
  simp [decode, (OpcMap.lookup_eq_none m t.w0).2 h]

/-- A tuple decodes by its opcode word, or has none and is illegal (R108, R113). -/
theorem decode_cases {m : OpcMap} (h : m.injective = true) (t : Tuple) :
    (∃ o, m.word o = t.w0 ∧ decode m t = .ok (o.operands t)) ∨
      ((∀ o, m.word o ≠ t.w0) ∧ decode m t = .error (.unknownOpcode t.w0)) := by
  by_cases ho : ∃ o, m.word o = t.w0
  · obtain ⟨o, ho⟩ := ho
    exact .inl ⟨o, ho, decode_of_word h ho⟩
  · have hnone : ∀ o, m.word o ≠ t.w0 := fun o hw => ho ⟨o, hw⟩
    exact .inr ⟨hnone, decode_of_unknown hnone⟩

@[simp] theorem opcode_operands (o : Opcode) (t : Tuple) : (o.operands t).opcode = o := by
  cases o <;> rfl

/-- The encoding of an instruction decodes to it, whatever words its operands are. -/
theorem decode_encode {m : OpcMap} (h : m.injective = true) (i : Instr) : decode m (encode m i) = .ok i := by
  obtain ⟨hword, hoperands⟩ := encode_words i m
  rw [decode_of_word h hword.symm, hoperands]

/-- The encoding of an instruction of the width is four words of it. -/
theorem encode_fits {xlen : Nat} {m : OpcMap} {i : Instr} (hm : m.fits xlen = true) (hi : i.fits xlen = true) :
    (encode m i).fits xlen = true := by
  have hopc : isWord xlen (encode m i).w0 = true := by
    rw [(encode_words i m).1]
    exact List.all_eq_true.1 hm _ (mem_opcodeAll _)
  cases i <;> simp_all [encode, Tuple.fits, Instr.fits, Instr.regFields, Instr.immediates]

/-! ### The four words as one value -/

/-- Any word of a value whose part below it is gone is found by wrapping: what lies above does not matter (R101). -/
theorem wrap_uval_add_mul {xlen : Nat} {w : Word} (hw : isWord xlen w = true) (k : Nat) :
    wrap xlen ((uval xlen w + 2 ^ xlen * k : Nat) : Int) = w := by
  have hmod : wrap xlen ((uval xlen w + 2 ^ xlen * k : Nat) : Int) = wrap xlen (uval xlen w : Int) := by
    rw [wrap_eq_wrap_iff]
    push_cast
    exact Int.add_mul_emod_self_left _ _ _
  rw [hmod, wrap_uval, wrap_of_isWord hw]

/-- The value of four words, with the lowest word split off at each place (R101). -/
theorem value_eq_horner (xlen : Nat) (t : Tuple) : t.value xlen =
    uval xlen t.w0 + 2 ^ xlen * (uval xlen t.w1 + 2 ^ xlen * (uval xlen t.w2 + 2 ^ xlen * uval xlen t.w3)) := by
  simp only [Tuple.value, mul_comm _ xlen, pow_mul]
  ring

theorem uval_add_mul_div (xlen : Nat) (w : Word) (k : Nat) : (uval xlen w + 2 ^ xlen * k) / 2 ^ xlen = k := by
  rw [Nat.add_mul_div_left _ _ (Nat.two_pow_pos xlen), Nat.div_eq_of_lt (uval_lt xlen w), Nat.zero_add]

/-- Four words take 4 times `XLEN` bits. -/
theorem value_lt (xlen : Nat) (t : Tuple) : t.value xlen < 2 ^ (4 * xlen) := by
  have hstep : ∀ (w : Word) (k n : Nat), k < n → uval xlen w + 2 ^ xlen * k < 2 ^ xlen * n := fun w k n hk =>
    calc uval xlen w + 2 ^ xlen * k
      _ < 2 ^ xlen + 2 ^ xlen * k := by have := uval_lt xlen w; omega
      _ = 2 ^ xlen * (k + 1) := by ring
      _ ≤ 2 ^ xlen * n := Nat.mul_le_mul_left _ hk
  rw [value_eq_horner, mul_comm 4 xlen, pow_mul, pow_succ', pow_succ', pow_two]
  exact hstep _ _ _ (hstep _ _ _ (hstep _ _ _ (uval_lt xlen t.w3)))

/-- The four words are read back from their value (R101). -/
theorem ofTableWord_value {xlen : Nat} {t : Tuple} (ht : t.fits xlen = true) :
    Tuple.ofTableWord xlen (4 * xlen) (t.value xlen) = t := by
  simp only [Tuple.fits, Bool.and_eq_true] at ht
  obtain ⟨⟨⟨h0, h1⟩, h2⟩, h3⟩ := ht
  have h4 : wrap xlen (uval xlen t.w3 : Int) = t.w3 := by rw [wrap_uval, wrap_of_isWord h3]
  have hsq : 2 ^ (2 * xlen) = 2 ^ xlen * 2 ^ xlen := by ring
  have hcube : 2 ^ (3 * xlen) = 2 ^ xlen * 2 ^ xlen * 2 ^ xlen := by ring
  rw [Tuple.ofTableWord, Nat.mod_eq_of_lt (value_lt xlen t), value_eq_horner, Tuple.ofValue, hsq, hcube]
  simp only [← Nat.div_div_eq_div_mul, uval_add_mul_div, wrap_uval_add_mul h0, wrap_uval_add_mul h1,
    wrap_uval_add_mul h2, h4]

/-! ### The statements -/

/-- Settles O2: the value gives the four encoded words back, and those decode by their opcode word. -/
theorem decodeOfEncodeIsIdentity : Obligations.DecodeOfEncodeIsIdentity := by
  intro xlen m hm hfits i hi
  rw [ofTableWord_value (encode_fits hfits hi), decode_encode hm]

/-- Settles O3: a tuple either carries the opcode word of one mnemonic, whose operands it holds, or decodes to none. -/
theorem decodeIsTheClosedEnumeration : Obligations.DecodeIsTheClosedEnumeration := by
  intro m hm t
  rcases decode_cases hm t with ⟨o, ho, hdecode⟩ | ⟨hnone, hdecode⟩
  · refine ⟨fun i => ⟨fun h => ?_, fun ⟨hw, hi⟩ => ?_⟩, by simp [hdecode], fun h => absurd ho (h o)⟩
    · obtain rfl : o.operands t = i := by simpa [hdecode] using h
      simp [ho]
    · rw [hi]
      exact decode_of_word hm hw
  · exact ⟨fun i => by simp [hdecode, hnone], by simp [hnone], fun _ => ⟨_, hdecode⟩⟩

/-- Settles O4: the operands of a mnemonic are read from its used words alone, and the encoder puts 0 into the others. -/
theorem unusedWordsAreIgnored : Obligations.UnusedWordsAreIgnored := by
  refine ⟨fun m o t u hm ht hu h1 h2 h3 => ?_, fun m i => ?_⟩
  · have hoperands : o.operands u = o.operands t := by
      cases o <;> simp_all [Opcode.operands, usedWords]
    rw [decode_of_word hm (ht ▸ hu.symm), decode_of_word hm ht.symm, hoperands]
  · cases i <;> simp [encode, usedWords, Instr.opcode]

/-- Settles O1: each of the sixteen tuples is decoded. -/
theorem tableWordsDecode : Obligations.TableWordsDecode := by
  unfold Obligations.TableWordsDecode
  decide

end Sys2Proof
end

section
/-! PROOFS. Register fields (30_encoding.md R104, R105): under a numbering of the nine registers by 0..8 each of those words names
one, and an instruction is well formed exactly when each of its fields names one. -/

namespace Sys2Proof.Machine

/-- Nine different indices from 0..8 are all of 0..8 (R21). -/
theorem exists_index_eq {m : RegMap} (h : m.bijective = true) {k : Nat} (hk : k ≤ 8) : ∃ r, m.index r = k := by
  have hnodup : (Reg.all.map m.index).Nodup := by
    simp only [RegMap.bijective, Bool.and_eq_true, decide_eq_true_eq] at h
    exact h.1
  have hsub : (Reg.all.map m.index).toFinset ⊆ Finset.range 9 := fun n hn => by
    obtain ⟨r, -, rfl⟩ : ∃ r ∈ Reg.all, m.index r = n := by simpa using hn
    exact Finset.mem_range.2 (Nat.lt_succ_of_le (index_le_of_bijective h r))
  have hall : (Reg.all.map m.index).toFinset = Finset.range 9 :=
    Finset.eq_of_subset_of_card_le hsub (by rw [List.toFinset_card_of_nodup hnodup]; simp [Reg.all])
  have hmem : k ∈ (Reg.all.map m.index).toFinset := hall ▸ Finset.mem_range.2 (by omega)
  obtain ⟨r, -, hr⟩ : ∃ r ∈ Reg.all, m.index r = k := by simpa using hmem
  exact ⟨r, hr⟩

/-- A word names no register exactly when it is no index (R105). -/
theorem registerAt_eq_none_iff {m : RegMap} (h : m.bijective = true) (w : Int) :
    registerAt m w = none ↔ regIndexOk w = false := by
  refine ⟨fun hnone => ?_, registerAt_eq_none_of_bad_index h⟩
  by_contra hok
  obtain ⟨h0, h8⟩ : 0 ≤ w ∧ w ≤ 8 := by simpa [regIndexOk] using hok
  obtain ⟨r, hr⟩ := exists_index_eq h (k := w.toNat) (by omega)
  have hsome : registerAt m w = some r := (registerAt_eq_some h w r).2 (by omega)
  simp [hnone] at hsome

/-- An instruction is badly formed exactly when one of its fields names no register (R105). -/
theorem wellFormed_eq_false_iff {s : State} (h : s.cfg.regnum.bijective = true) (i : Instr) :
    i.wellFormed = false ↔ ∃ w ∈ i.regFields, s.regField w = none := by
  simp only [Instr.wellFormed, List.all_eq_false, State.regField, registerAt_eq_none_iff h, Bool.not_eq_true]

/-- Settles O5: the lookup finds the register with the index, and the nine indices are 0..8. -/
theorem registerFieldsNameRegisters : Obligations.RegisterFieldsNameRegisters := by
  refine ⟨fun m hm w r => ⟨registerAt_eq_some hm w r, ?_⟩, ?_⟩
  · rw [registerAt_eq_none_iff hm]
    simp [regIndexOk]
  · decide

/-- Settles O6: a field outside 0..8 names no register, and the fields are looked at before any other effect. -/
theorem badRegisterFieldIsIllegal : Obligations.BadRegisterFieldIsIllegal :=
  fun _ _ hbij hi => exec_illegal (exists_regField_none_of_not_wellFormed hbij hi)

end Sys2Proof.Machine
end

section
/-! PROOFS. The arithmetic of words (00_scope.md R10; 40_arith_move.md R137, R138): the quotient rounded toward zero, and what
wrapping gives at every width of at least 1. -/

namespace Sys2Proof.Machine

theorem sdiv_natCast (m n : Nat) : sdiv m n = ((m / n : Nat) : Int) := by
  rcases m.eq_zero_or_pos with rfl | hm
  · simp [sdiv]
  · rcases n.eq_zero_or_pos with rfl | hn
    · simp [sdiv]
    · simp [sdiv, Int.sign_eq_one_of_pos (Int.natCast_pos.2 hm), Int.sign_eq_one_of_pos (Int.natCast_pos.2 hn)]

theorem sdiv_neg_left (a b : Int) : sdiv (-a) b = -sdiv a b := by simp [sdiv]

theorem sdiv_neg_right (a b : Int) : sdiv a (-b) = -sdiv a b := by simp [sdiv]

/-- The product of the signs and the quotient of the sizes is the truncated quotient (R137). -/
theorem sdiv_eq_tdiv (a b : Int) : sdiv a b = Int.tdiv a b := by
  obtain ⟨m, rfl | rfl⟩ := a.eq_nat_or_neg <;> obtain ⟨n, rfl | rfl⟩ := b.eq_nat_or_neg <;>
    simp only [sdiv_neg_left, sdiv_neg_right, sdiv_natCast, Int.neg_tdiv, Int.tdiv_neg, Int.ofNat_tdiv]

/-- Settles O12: the quotient is the truncated one, whose size and sign are those asked for. -/
theorem sdivRoundsTowardZero : Obligations.SdivRoundsTowardZero := by
  intro a b _
  rw [sdiv_eq_tdiv]
  refine ⟨Int.natAbs_tdiv a b, ?_, rfl⟩
  by_cases hlt : a.natAbs < b.natAbs
  · exact .inl (Int.sign_eq_zero_iff_zero.1 (by simp [Int.sign_tdiv, hlt]))
  · exact .inr (by simp [Int.sign_tdiv, hlt])

/-- Two integers wrap alike exactly when they are congruent modulo 2^`XLEN` (R10). -/
theorem wrap_eq_wrap_iff_modEq (xlen : Nat) (a b : Int) : wrap xlen a = wrap xlen b ↔ a ≡ b [ZMOD 2 ^ xlen] := by
  rw [wrap_eq_wrap_iff]
  push_cast
  rfl

/-- Wrapping gives the one word congruent to an integer (R10). -/
theorem wrap_eq_iff (xlen : Nat) (n w : Int) :
    wrap xlen n = w ↔ isWord xlen w = true ∧ (2 ^ xlen : Int) ∣ w - n := by
  rw [← Int.modEq_iff_dvd, ← wrap_eq_wrap_iff_modEq]
  constructor
  · rintro rfl
    exact ⟨isWord_wrap xlen n, (wrap_of_isWord (isWord_wrap xlen n)).symm⟩
  · rintro ⟨hw, hn⟩
    exact hn.trans (wrap_of_isWord hw)

/-- The unsigned reading is congruent to its integer (R10). -/
theorem uval_modEq (xlen : Nat) (w : Word) : (uval xlen w : Int) ≡ w [ZMOD 2 ^ xlen] :=
  (wrap_eq_wrap_iff_modEq xlen _ _).1 (wrap_uval xlen w)

/-- The one overflow of DIV gives its dividend back (R138). -/
theorem wrap_sdiv_min {xlen : Nat} (h : 1 ≤ xlen) : wrap xlen (sdiv (-(2 ^ (xlen - 1))) (-1)) = -(2 ^ (xlen - 1)) := by
  have hquotient : sdiv (-(2 ^ (xlen - 1))) (-1) = 2 ^ (xlen - 1) := by simp [sdiv_eq_tdiv]
  have htop : (2 : Int) ^ xlen = 2 * 2 ^ (xlen - 1) := by rw [← pow_succ', Nat.sub_add_cancel h]
  have hpos : (0 : Int) < 2 ^ (xlen - 1) := by positivity
  rw [hquotient, wrap_eq_iff, isWord_iff_range h, htop]
  exact ⟨by omega, -1, by ring⟩

/-- Settles O13: wrapping depends on the residue alone, and the unsigned readings have the residues of the signed ones. -/
theorem arithmeticWraps : Obligations.ArithmeticWraps := by
  intro xlen h
  refine ⟨isWord_iff_range h, wrap_eq_iff xlen, fun w => ⟨uval_lt xlen w, ?_⟩, fun x y => ?_, wrap_sdiv_min h⟩
  · exact (uval_modEq xlen w).symm.dvd
  · have hx := (uval_modEq xlen x).symm
    have hy := (uval_modEq xlen y).symm
    simp only [wrap_eq_wrap_iff_modEq]
    exact ⟨hx.add hy, hx.sub hy, hx.mul hy⟩

end Sys2Proof.Machine
end

section
/-! PROOFS. BNE and BLT (41_branch.md R152, R153): what each meaning answers where its condition holds and where it does not, and
the statements about them. -/

namespace Sys2Proof.Machine

section
variable {s : State} {ra rb addr : Word} {a b : Reg}

theorem execBne_of_eq (ha : s.regField ra = some a) (hb : s.regField rb = some b) (h : s.reg a = s.reg b) :
    execBne ra rb addr s = .next s :=
  (withReg_two _ ha hb).trans (by simp [State.differ, h])

theorem execBne_of_ne (ha : s.regField ra = some a) (hb : s.regField rb = some b) (h : s.reg a ≠ s.reg b) :
    execBne ra rb addr s = s.takeBranch addr :=
  (withReg_two _ ha hb).trans (by simp [State.differ, h])

theorem execBlt_of_le (ha : s.regField ra = some a) (hb : s.regField rb = some b) (h : s.reg b ≤ s.reg a) :
    execBlt ra rb addr s = .next s :=
  (withReg_two _ ha hb).trans (by simp [State.less, h])

theorem execBlt_of_lt (ha : s.regField ra = some a) (hb : s.regField rb = some b) (h : s.reg a < s.reg b) :
    execBlt ra rb addr s = s.takeBranch addr :=
  (withReg_two _ ha hb).trans (by simp [State.less, h])

end

/-- Settles O16: different words make BNE `TakeBranch` of its address, equal ones nothing. -/
theorem bneBranchesOnDifference : Obligations.BneBranchesOnDifference := by
  refine fun s ra rb addr => ⟨rfl, fun a b ha hb => ⟨execBne_of_eq ha hb, fun pa hne hpa => ?_, fun hne hpa => ?_⟩,
    withReg_two_illegal _⟩
  · simpa only [exec, execBne_of_ne ha hb hne] using takeBranch_lands hpa
  · exact (execBne_of_ne ha hb hne).trans (takeBranch_of_translate_none hpa)

/-- Settles O17: a lesser first word makes BLT `TakeBranch` of its address, another nothing. -/
theorem bltBranchesOnSignedLess : Obligations.BltBranchesOnSignedLess := by
  refine fun s ra rb addr => ⟨rfl, fun a b ha hb => ⟨execBlt_of_le ha hb, fun pa hlt hpa => ?_, fun hlt hpa => ?_⟩,
    withReg_two_illegal _⟩
  · simpa only [exec, execBlt_of_lt ha hb hlt] using takeBranch_lands hpa
  · exact (execBlt_of_lt ha hb hlt).trans (takeBranch_of_translate_none hpa)

end Sys2Proof.Machine
end

section
/-! PROOFS. PUSH and POP (42_stack.md): what each meaning answers by the outcome of the slot's translation, and the statements
about them. -/

namespace Sys2Proof.Machine

section
variable {s : State} {r : Word} {d : Reg}

theorem execPush_of_translate_some {pa : Nat} (hd : s.regField r = some d)
    (h : s.translate (s.stackVa (s.reg .sp)) = some pa) :
    execPush r s = .next ((s.setPhys pa (s.reg d)).setReg .sp (wrap s.cfg.xlen (s.reg .sp + 1))) := by
  refine (withReg_some s r _ hd).trans ?_
  rw [memWrite_of_translate_some _ h]
  rfl

theorem execPush_of_translate_none (hd : s.regField r = some d) (h : s.translate (s.stackVa (s.reg .sp)) = none) :
    execPush r s = .next (s.trap (.illegalMemoryAccess (faultWord s.cfg.xlen (s.stackVa (s.reg .sp))))) := by
  refine (withReg_some s r _ hd).trans ?_
  rw [memWrite_of_translate_none _ h]
  rfl

theorem execPop_of_empty (hd : s.regField r = some d) (h : s.reg .sp ≤ 0) : execPop r s = .next s :=
  (withReg_some s r _ hd).trans (by simp [State.stackEmpty, h])

theorem execPop_of_translate_some {pa : Nat} (hd : s.regField r = some d) (hsp : 0 < s.reg .sp)
    (h : s.translate (s.stackVa (s.reg .sp - 1)) = some pa) :
    execPop r s = .next ((s.setReg .sp (s.reg .sp - 1)).setReg d (s.mem.read pa)) := by
  refine (withReg_some s r _ hd).trans ((if_neg (by simpa [State.stackEmpty] using hsp)).trans ?_)
  simp only [memRead_of_translate_some h]
  rfl

theorem execPop_of_translate_none (hd : s.regField r = some d) (hsp : 0 < s.reg .sp)
    (h : s.translate (s.stackVa (s.reg .sp - 1)) = none) :
    execPop r s = .next (s.trap (.illegalMemoryAccess (faultWord s.cfg.xlen (s.stackVa (s.reg .sp - 1))))) := by
  refine (withReg_some s r _ hd).trans ((if_neg (by simpa [State.stackEmpty] using hsp)).trans ?_)
  simp only [memRead_of_translate_none h]
  rfl

end

/-- A store and the write of SP after it change nothing but the word and SP. -/
theorem setPhys_setReg_storeOnly (s : State) (pa : Nat) (v : Word) (d : Reg) (x : Word) :
    storeOnly [d] pa s ((s.setPhys pa v).setReg d x) := by
  obtain ⟨-, hmem, hcontrol, hhold⟩ := setPhys_storeOnly s pa v
  exact ⟨fun q hq => setReg_reg_other _ d x q (by simpa using hq), hmem, hcontrol, hhold⟩

/-- Two register writes change nothing but their registers. -/
theorem setReg_setReg_regsOnly (s : State) (p d : Reg) (x v : Word) : regsOnly [d, p] s ((s.setReg p x).setReg d v) := by
  refine ⟨fun q hq => ?_, fun _ => rfl, ⟨rfl, rfl, rfl, rfl, rfl⟩, rfl⟩
  simp only [List.mem_cons, List.not_mem_nil, or_false, not_or] at hq
  rw [setReg_reg_other _ d v q hq.1, setReg_reg_other _ p x q hq.2]

/-- Settles O18: whether the slot above the stack translates decides between the store with the increment and the trap. -/
theorem pushStoresAtStackSlot : Obligations.PushStoresAtStackSlot := by
  intro s r
  refine ⟨rfl, fun d pa hd hpa => ?_, fun d hd hpa => ?_, withReg_none s r _⟩
  · exact ⟨_, execPush_of_translate_some hd hpa, setReg_reg_same _ .sp _, setPhys_setReg_storeOnly s pa _ .sp _,
      Memory.read_write_same s.mem pa _⟩
  · exact ⟨_, execPush_of_translate_none hd hpa, faultWord_of_isWord⟩

/-- Settles O19: with words on the stack, whether the top slot translates decides between the two register writes, the
destination's last, and the trap. -/
theorem popReadsStackSlot : Obligations.PopReadsStackSlot := by
  intro s r
  refine ⟨rfl, fun d => execPop_of_empty, fun d pa hd hsp hpa => ?_, fun d hd hsp hpa => ?_, withReg_none s r _⟩
  · refine ⟨_, execPop_of_translate_some hd hsp hpa, setReg_reg_same _ d _, fun hne => ?_,
      setReg_setReg_regsOnly s .sp d _ _, ?_⟩
    · rw [setReg_reg_other _ d _ .sp hne.symm, setReg_reg_same]
    · rintro rfl
      exact plainPcWrite_of_reg_pc (setReg_reg_same _ .pc _)
  · exact ⟨_, execPop_of_translate_none hd hsp hpa, faultWord_of_isWord⟩

end Sys2Proof.Machine
end

section
/-! PROOFS. What a translation depends on (20_memory.md R67 to R73), and the round trip of PUSH and POP (42_stack.md R163). -/

namespace Sys2Proof.Machine

theorem translate_of_segment {s : State} (h : s.cfg.mode = .segment) (va : Int) :
    s.translate va = s.translateSegment va := by
  simp [State.translate, h]

theorem translate_of_paged {s : State} (h : s.cfg.mode = .paged) (va : Int) : s.translate va = s.translatePaged va := by
  simp [State.translate, h]

/-- A translation reads BASE, LIM, the memory and the configuration, and nothing else (R67 to R73). -/
theorem translate_congr {s t : State} (hmem : t.mem = s.mem) (hcfg : t.cfg = s.cfg) (hbase : t.reg .base = s.reg .base)
    (hlim : t.reg .lim = s.reg .lim) (va : Int) : t.translate va = s.translate va := by
  cases h : s.cfg.mode with
  | segment =>
    rw [translate_of_segment h, translate_of_segment (hcfg ▸ h)]
    unfold State.translateSegment
    rw [hcfg, hbase, hlim]
  | paged =>
    rw [translate_of_paged h, translate_of_paged (hcfg ▸ h)]
    unfold State.translatePaged State.phys
    rw [hcfg, hmem]

/-- In segment mode a store changes no translation (R68). -/
theorem translate_setPhys_of_segment {s : State} (h : s.cfg.mode = .segment) (pa : Nat) (v : Word) (va : Int) :
    (s.setPhys pa v).translate va = s.translate va := by
  rw [translate_of_segment h, translate_of_segment (s := s.setPhys pa v) h]
  rfl

/-- A call leaves a record, so a state with the log of before made none (R232). -/
theorem log_ne_trap_log (s : State) (c : TrapCall) : (s.trap c).env.log ≠ s.env.log := by simp

/-- A PUSH of a register that made no call stored the register in its slot and counted SP up (R161). -/
theorem push_of_log_eq {s t : State} {r : Word} {d : Reg} (hd : s.regField r = some d) (h : exec (.push r) s = .next t)
    (hlog : t.env.log = s.env.log) :
    ∃ pa, s.translate (s.stackVa (s.reg .sp)) = some pa ∧
      t = (s.setPhys pa (s.reg d)).setReg .sp (wrap s.cfg.xlen (s.reg .sp + 1)) := by
  cases hpa : s.translate (s.stackVa (s.reg .sp)) with
  | some pa =>
    obtain rfl := Host.Outcome.next.inj (h.symm.trans (execPush_of_translate_some hd hpa))
    exact ⟨pa, rfl, rfl⟩
  | none =>
    obtain rfl := Host.Outcome.next.inj (h.symm.trans (execPush_of_translate_none hd hpa))
    exact absurd hlog (log_ne_trap_log s _)

/-- Below the greatest SP the increment is exact (R138, R161). -/
theorem wrap_sp_succ {xlen : Nat} {n : Int} (h0 : 0 ≤ n) (h : n < 2 ^ (xlen - 1) - 1) : wrap xlen (n + 1) = n + 1 := by
  have hx : 1 ≤ xlen := by
    rcases xlen with _ | k
    · norm_num at h
      omega
    · omega
  exact wrap_of_range (by omega) (by omega) hx

/-- Settles O20: the POP finds the slot of the PUSH again, at an address that translates as before, and takes SP back to it. -/
theorem pushThenPopRestores : Obligations.PushThenPopRestores := by
  intro s t u r d hwf hd hpc h0 hmax hpush hlog hpaged hmem hcfg hregs
  obtain ⟨pa, hpa, rfl⟩ := push_of_log_eq hd hpush hlog
  have hsp : u.reg .sp = s.reg .sp + 1 := by
    rw [hregs .sp (by decide), setReg_reg_same, wrap_sp_succ h0 hmax]
  have hbase : u.reg .base = s.reg .base := hregs .base (by decide)
  have hlim : u.reg .lim = s.reg .lim := hregs .lim (by decide)
  have hslot : u.stackVa (u.reg .sp - 1) = s.stackVa (s.reg .sp) := by
    simp only [State.stackVa, hsp, hbase, hlim]
    omega
  have htranslate : u.translate (s.stackVa (s.reg .sp)) = some pa := by
    rw [translate_congr hmem hcfg (hregs .base (by decide)) (hregs .lim (by decide)), ← hpa]
    cases hmode : s.cfg.mode with
    | paged => exact hpaged hmode
    | segment => exact translate_setPhys_of_segment hmode pa (s.reg d) _
  have hread : u.mem.read pa = s.reg d := by
    rw [hmem]
    exact Memory.read_write_same s.mem pa _ hwf
  have hfield : u.regField r = some d := by rwa [State.regField, hcfg]
  refine ⟨_, execPop_of_translate_some hfield (by omega) (hslot ▸ htranslate), ?_, ?_⟩
  · rw [setReg_reg_same, hread]
  · by_cases hdsp : d = .sp
    · rw [hdsp, setReg_reg_same, hread, hdsp]
    · rw [setReg_reg_other _ d _ .sp (Ne.symm hdsp), setReg_reg_same, hsp]
      omega

end Sys2Proof.Machine
end

section
/-! PROOFS. The memory array, the translator and the fetch (20_memory.md): each by its exact condition, and the statements about
them. -/

namespace Sys2Proof.Machine

/-! ### The memory array -/

theorem Memory.read_write {m : Memory} (h : m.wf = true) (a : Nat) (v : Word) (b : Nat) :
    (m.write a v).read b = if b = a then v else m.read b := by
  split
  · next hb => rw [hb, m.read_write_same a v h]
  · next hb => rw [m.read_write_other a b v hb]

/-- Canonical memories that read alike are equal. -/
theorem Memory.ext_read {m n : Memory} (hm : m.wf = true) (hn : n.wf = true) (h : ∀ a, m.read a = n.read a) : m = n :=
  congrArg Memory.mk (readCells_eq_of_all m.cells n.cells 0 hm hn h)

/-- Settles O35: the read after a write, and the one canonical form of what is read. -/
theorem memoryReadsBackWrites : Obligations.MemoryReadsBackWrites :=
  ⟨fun m a v h => ⟨m.write_wf a v h, Memory.read_write h a v⟩, fun _ _ => Memory.ext_read⟩

/-! ### The fetch -/

/-- A fetch reads four words from where its first one translates to, checked against the array's end alone (R76, R77). -/
theorem fetchAt_eq_some_iff {s : State} {va : Int} {t : Tuple} :
    s.fetchAt va = some t ↔ ∃ pa, s.translate va = some pa ∧ pa + 3 < s.cfg.memSize ∧
      t = ⟨s.mem.read pa, s.mem.read (pa + 1), s.mem.read (pa + 2), s.mem.read (pa + 3)⟩ := by
  cases h : s.translate va with
  | none => simp [State.fetchAt, h]
  | some pa => simp [State.fetchAt, h, State.phys, eq_comm (a := t)]

/-- Settles O34: the exact condition of a fetch. -/
theorem fetchReadsFourPhysicalWords : Obligations.FetchReadsFourPhysicalWords :=
  fun _ _ _ => fetchAt_eq_some_iff

/-- Settles O23: the fetch reads the memory that the SAVE wrote. -/
theorem fetchSeesTheStore : Obligations.FetchSeesTheStore := by
  intro s t rs ra d a pa q va hwf hd ha hpa hsave hq hend
  obtain rfl := Host.Outcome.next.inj (hsave.symm.trans (execSave_of_translate_some hd ha hpa))
  have hread := Memory.read_write hwf pa (s.reg d)
  exact ⟨_, fetchAt_eq_some_iff.2 ⟨q, hq, hend, rfl⟩, hread q, hread (q + 1), hread (q + 2), hread (q + 3)⟩

/-! ### Segment mode -/

theorem translateSegment_eq_some_iff {s : State} {va : Int} {pa : Nat} :
    s.translateSegment va = some pa ↔
      (pa : Int) = s.reg .base + va ∧ s.reg .base ≤ pa ∧ (pa : Int) ≤ s.reg .lim ∧ pa < s.cfg.memSize := by
  refine ⟨fun h => ?_, fun ⟨hpa, hlo, hhi, hlt⟩ => ?_⟩
  · obtain ⟨hpa, hlo, hhi⟩ := translateSegment_window h
    exact ⟨hpa, hlo, hhi, translateSegment_lt h⟩
  · simp [State.translateSegment, ← hpa, hlo, hhi, hlt]

/-- Settles O30: the exact condition of the segment translator. -/
theorem segmentTranslation : Obligations.SegmentTranslation := by
  intro s va pa h
  rw [translate_of_segment h, translateSegment_eq_some_iff]

/-! ### The page size -/

/-- The larger of two powers of two is the power of the larger exponent. -/
theorem max_two_pow (j k : Nat) : max (2 ^ j) (2 ^ k) = 2 ^ max j k :=
  (Monotone.map_max (f := fun n : Nat => 2 ^ n) fun _ _ h => Nat.pow_le_pow_right (by omega) h).symm

/-- `M0` is the least power of two at least `MIN_PAGE_SIZE` (R70). -/
theorem minimumPage_eq {c : Config} (h : 1 ≤ c.minPageSize) : minimumPage c = 2 ^ Nat.clog 2 c.minPageSize := by
  have hlow : 2 ^ Nat.log2 c.minPageSize ≤ c.minPageSize := Nat.log2_self_le (by omega)
  have hhigh : c.minPageSize < 2 ^ (Nat.log2 c.minPageSize + 1) := Nat.lt_log2_self
  simp only [minimumPage]
  split_ifs with hlt
  · have hup : Nat.clog 2 c.minPageSize ≤ Nat.log2 c.minPageSize + 1 :=
      (Nat.clog_le_iff_le_pow Nat.one_lt_two).2 hhigh.le
    have hdown : ¬ Nat.clog 2 c.minPageSize ≤ Nat.log2 c.minPageSize := fun hle =>
      absurd ((Nat.clog_le_iff_le_pow Nat.one_lt_two).1 hle) (by omega)
    rw [show Nat.clog 2 c.minPageSize = Nat.log2 c.minPageSize + 1 by omega, pow_succ']
  · have hpow : c.minPageSize = 2 ^ Nat.log2 c.minPageSize := by omega
    conv_rhs => rw [hpow, Nat.clog_pow 2 _ Nat.one_lt_two]

/-- `PAGE_SIZE` is a power of two, with `OFFSET_BITS` its logarithm (R70). -/
theorem pageSize_eq_two_pow (c : Config) : pageSize c = 2 ^ offsetBits c := by
  obtain ⟨k, hk⟩ : ∃ k, minimumPage c = 2 ^ k := by
    simp only [minimumPage]
    split_ifs
    · exact ⟨_, (pow_succ' 2 _).symm⟩
    · exact ⟨_, rfl⟩
  have hpage : pageSize c = 2 ^ max (Nat.log2 c.pageSizeCfg) k := by rw [pageSize, hk, configuredPage, max_two_pow]
  rw [offsetBits, hpage, Nat.log2_two_pow]

/-- A configuration of paged mode keeps its page offsets inside a word (R70). -/
theorem configOk_offsetBits_le {c : Config} (h : configOk c = true) (hmode : c.mode = .paged) :
    offsetBits c ≤ c.xlen - 2 := by
  simp only [configOk, hmode, Bool.and_eq_true] at h
  obtain ⟨-, hpaged⟩ := h
  simp only [pagedConfigOk, Bool.and_eq_true, decide_eq_true_eq] at hpaged
  obtain ⟨⟨⟨⟨-, hbits⟩, -⟩, -⟩, -⟩ := hpaged
  exact hbits

/-- Settles O33: the two exponents are the floor and the ceiling of the logarithms of the two sizes. -/
theorem pageSizeDerivation : Obligations.PageSizeDerivation := by
  refine ⟨fun c hc hmin => ⟨Nat.log2 c.pageSizeCfg, Nat.clog 2 c.minPageSize, Nat.log2_self_le (by omega), fun n hn => ?_,
    Nat.le_pow_clog Nat.one_lt_two _, fun n => (Nat.clog_le_iff_le_pow Nat.one_lt_two).2, ?_, pageSize_eq_two_pow c, rfl⟩,
    fun _ => configOk_offsetBits_le, by decide⟩
  · exact (Nat.le_log2 (by omega)).2 hn
  · rw [pageSize, configuredPage, minimumPage_eq hmin]

/-! ### Paged mode -/

/-- A frame number above an offset below the page size is their sum (R72). -/
theorem frame_or_offset (c : Config) (f va : Nat) :
    (f <<< offsetBits c ||| va &&& offsetMask c) = f * pageSize c + va % pageSize c := by
  have hlt : va % 2 ^ offsetBits c < 2 ^ offsetBits c := Nat.mod_lt _ (Nat.two_pow_pos _)
  rw [offsetMask, pageSize_eq_two_pow, Nat.and_two_pow_sub_one_eq_mod, ← Nat.shiftLeft_add_eq_or_of_lt hlt,
    Nat.shiftLeft_eq]

theorem translatePaged_eq_some_iff {s : State} {va pa : Nat} : s.translatePaged va = some pa ↔
    va / pageSize s.cfg < s.cfg.numVPages ∧ va / pageSize s.cfg < s.cfg.memSize ∧
      uval s.cfg.xlen (s.mem.read (va / pageSize s.cfg)) % 2 = 1 ∧
      pa = uval s.cfg.xlen (s.mem.read (va / pageSize s.cfg)) / 2 ^ s.cfg.pteStatusBits * pageSize s.cfg +
        va % pageSize s.cfg ∧ pa < s.cfg.memSize := by
  have hpage : va >>> offsetBits s.cfg = va / pageSize s.cfg := by
    rw [Nat.shiftRight_eq_div_pow, pageSize_eq_two_pow]
  have hneg : ¬ ((va : Int) < 0) := by omega
  simp only [State.translatePaged, if_neg hneg, Int.toNat_natCast, hpage, frame_or_offset, pteFrame, pteValid,
    Nat.and_one_is_mod, Nat.shiftRight_eq_div_pow, decide_eq_true_eq, State.phys]
  split_ifs <;> simp <;> omega

theorem translatePaged_of_neg {s : State} {va : Int} (h : va < 0) : s.translatePaged va = none := by
  simp [State.translatePaged, h]

/-- Settles O31: the exact condition of the paged translator. -/
theorem pagedTranslation : Obligations.PagedTranslation := by
  intro s h
  simp only [translate_of_paged h]
  exact ⟨fun _ _ => translatePaged_eq_some_iff, fun _ => translatePaged_of_neg⟩

/-- Settles O32: a negative address lies below BASE in segment mode and is refused in paged mode, and each mode checks the end of
the array. -/
theorem translationStaysInTheArray : Obligations.TranslationStaysInTheArray := by
  refine fun s va => ⟨fun hneg => ?_, fun _ => translate_lt⟩
  cases h : s.cfg.mode with
  | paged => rw [translate_of_paged h, translatePaged_of_neg hneg]
  | segment =>
    refine Option.eq_none_iff_forall_ne_some.2 fun pa hpa => ?_
    rw [translate_of_segment h] at hpa
    obtain ⟨hpa, hlo, -⟩ := translateSegment_window hpa
    omega

end Sys2Proof.Machine
end

section
/-! PROOFS. The call of the kernel and the mailbox (60_exceptions.md R226 to R228, R240 to R247): what an answer leaves, settled
or of the free kernel, where the answer comes from, and the statements about the trap port and the poll. -/

namespace Sys2Proof.Machine

/-! ### What an answer writes -/

theorem applyRegWrites_concat (xlen : Nat) (x : Regs) (ws : List (Reg × Word)) (w : Reg × Word) :
    applyRegWrites xlen x (ws ++ [w]) = (applyRegWrites xlen x ws).set w.1 (wrap xlen w.2) := by
  simp [applyRegWrites]

theorem applyMemWrites_concat (xlen n : Nat) (m : Memory) (ws : List MemCell) (w : MemCell) :
    applyMemWrites xlen n m (ws ++ [w]) =
      if w.1 < n then (applyMemWrites xlen n m ws).write w.1 (wrap xlen w.2) else applyMemWrites xlen n m ws := by
  simp [applyMemWrites]

/-- After the kernel's register writes a register holds what was written there last (R228). -/
theorem applyRegWrites_get (xlen : Nat) (x : Regs) (ws : List (Reg × Word)) (r : Reg) :
    (applyRegWrites xlen x ws).get r =
      ((ws.reverse.find? fun w => w.1 == r).map fun w => wrap xlen w.2).getD (x.get r) := by
  induction ws using List.reverseRecOn with
  | nil => rfl
  | append_singleton ws w ih =>
    rw [applyRegWrites_concat, List.reverse_concat]
    by_cases hw : w.1 = r
    · rw [List.find?_cons_of_pos (by simpa using hw), ← hw, Regs.get_set_same]
      rfl
    · rw [List.find?_cons_of_neg (by simpa using hw), Regs.get_set_other _ _ _ _ (Ne.symm hw), ih]

/-- After the kernel's memory writes a word of the array holds what was written there last (R228). -/
theorem applyMemWrites_read (xlen n : Nat) {m : Memory} (h : m.wf = true) (ws : List MemCell) {a : Nat} (ha : a < n) :
    (applyMemWrites xlen n m ws).read a =
      ((ws.reverse.find? fun w => w.1 == a).map fun w => wrap xlen w.2).getD (m.read a) := by
  induction ws using List.reverseRecOn with
  | nil => rfl
  | append_singleton ws w ih =>
    rw [applyMemWrites_concat, List.reverse_concat]
    by_cases hw : w.1 = a
    · rw [List.find?_cons_of_pos (by simpa using hw), if_pos (hw ▸ ha), ← hw,
        Memory.read_write_same _ _ _ (applyMemWrites_wf xlen n m ws h)]
      rfl
    · rw [List.find?_cons_of_neg (by simpa using hw), ← ih]
      split
      · exact Memory.read_write_other _ _ _ _ (Ne.symm hw)
      · rfl

/-- The kernel's memory writes leave every word outside the array (R228). -/
theorem applyMemWrites_read_outside (xlen n : Nat) (m : Memory) (ws : List MemCell) {a : Nat} (ha : n ≤ a) :
    (applyMemWrites xlen n m ws).read a = m.read a := by
  refine applyMemWrites_keeps xlen n m ws (fun k => k.read a = m.read a) (fun k b v hk hb _ => ?_) rfl
  rw [k.read_write_other b a v (by omega), hk]

/-! ### Where the answer comes from, and its effect -/

section call
variable {s : State} {c : TrapCall} {k : KernelAnswer}

/-- A settled answer is used up (R14). -/
theorem kernelReply_of_settled {rest : List KernelAnswer} (h : s.env.answers = k :: rest) :
    s.kernelReply c = (k, { s.env with answers := rest }) := by
  simp [State.kernelReply, h]

/-- Past the settled answers the free kernel answers (R226). -/
theorem kernelReply_of_free (h : s.env.answers = []) : s.kernelReply c =
    ((Config.kernel s.env.kappa c s.view).1, { s.env with kappa := (Config.kernel s.env.kappa c s.view).2 }) := by
  simp [State.kernelReply, h]

@[simp] theorem trap_answers : (s.trap c).env.answers = (s.kernelReply c).2.answers := by rw [trap_eq]; rfl
@[simp] theorem trap_kappa : (s.trap c).env.kappa = (s.kernelReply c).2.kappa := by rw [trap_eq]; rfl
@[simp] theorem trapBeforeFetch_answers : (s.trapBeforeFetch c).env.answers = (s.kernelReply c).2.answers := by
  rw [trapBeforeFetch_eq]; rfl
@[simp] theorem trapBeforeFetch_kappa : (s.trapBeforeFetch c).env.kappa = (s.kernelReply c).2.kappa := by
  rw [trapBeforeFetch_eq]; rfl

/-- The registers, memory and ticks that the call of the trap port leaves are those of the answer. -/
theorem answerWritten_of_call {t : State} (hwf : s.mem.wf = true) (hregs : t.regs = applyRegWrites s.cfg.xlen s.regs k.regs)
    (hmem : t.mem = applyMemWrites s.cfg.xlen s.cfg.memSize s.mem k.mem) (hticks : t.ticks = s.ticks + k.addTicks) :
    answerWritten k s t := by
  refine ⟨fun r => ?_, fun pa hpa => ?_, hticks⟩
  · simp only [State.reg, hregs, applyRegWrites_get]
  · simp only [State.phys, hmem, applyMemWrites_read _ _ hwf _ hpa]

/-- The answer to a call is in effect after it (R226, R228). -/
theorem trap_answerWritten (hwf : s.mem.wf = true) : answerWritten (s.kernelReply c).1 s (s.trap c) :=
  answerWritten_of_call hwf (trap_regs s c) (trap_mem s c) (trap_ticks s c)

/-- So is the answer to a call of sub-step (a). -/
theorem trapBeforeFetch_answerWritten (hwf : s.mem.wf = true) :
    answerWritten (s.kernelReply c).1 s (s.trapBeforeFetch c) :=
  answerWritten_of_call hwf (trapBeforeFetch_regs s c) (trapBeforeFetch_mem s c) (trapBeforeFetch_ticks s c)

end call

/-! ### The statements about the trap port -/

/-- Settles O24: the opcode word alone is looked at, and the meaning is the call. -/
theorem trapRaisesSystemCall : Obligations.TrapRaisesSystemCall :=
  fun s _ _ _ => ⟨decode_of_word (m := .standard) (o := .trap) (by decide) rfl, _, rfl, rfl, trap_log s .systemCall⟩

/-- Settles O27: the fields that a call can touch, for both forms of the call. -/
theorem kernelIsConfinedToItsPort : Obligations.KernelIsConfinedToItsPort := by
  refine fun s c => ⟨?_, trapBeforeFetch_pcHold s c⟩
  have houtside : ∀ pa, s.cfg.memSize ≤ pa →
      (applyMemWrites s.cfg.xlen s.cfg.memSize s.mem (s.kernelReply c).1.mem).read pa = s.mem.read pa :=
    fun _ => applyMemWrites_read_outside _ _ _ _
  rintro t (rfl | rfl) <;> simp +contextual [State.phys, houtside]

/-- Settles O28: the answer at hand is the settled one. -/
theorem scriptedAnswerTakesEffect : Obligations.ScriptedAnswerTakesEffect := by
  intro s c k rest hanswers hwf
  have hreply : s.kernelReply c = (k, { s.env with answers := rest }) := kernelReply_of_settled hanswers
  have hwritten := trap_answerWritten (c := c) hwf
  rw [hreply] at hwritten
  exact ⟨hwritten, by simp [hreply], by simp [hreply], by simp [hreply], by simp [hreply]⟩

/-- Settles O29: the answer at hand is that of the free kernel. -/
theorem freeKernelAnswerTakesEffect : Obligations.FreeKernelAnswerTakesEffect := by
  intro s c k next hanswers hkernel hwf
  have hreply : s.kernelReply c = (k, { s.env with kappa := next }) := by
    rw [kernelReply_of_free hanswers, State.view, hkernel]
  have hwritten := trap_answerWritten (c := c) hwf
  have hwritten' := trapBeforeFetch_answerWritten (c := c) hwf
  rw [hreply] at hwritten hwritten'
  refine ⟨?_, by simp [hreply], by simp⟩
  rintro t (rfl | rfl)
  · exact ⟨hwritten, by simp [hreply], by simp [hreply, hanswers], by simp [hreply]⟩
  · exact ⟨hwritten', by simp [hreply], by simp [hreply, hanswers], by simp [hreply]⟩

/-! ### The mailbox -/

theorem post_of_empty {s : State} (h : s.mbox = none) (ev : InterruptEvent) :
    s.post ev = some { s with mbox := some ev } := by
  simp [State.post, h]

theorem post_of_full {s : State} (h : s.mbox ≠ none) (ev : InterruptEvent) : s.post ev = none := by
  obtain ⟨old, hold⟩ := Option.ne_none_iff_exists'.1 h
  simp [State.post, hold]

/-- Settles O36: a post completes on the empty slot alone, and the take after it gives its event and the state before it. -/
theorem mailboxHoldsOneEvent : Obligations.MailboxHoldsOneEvent := by
  refine fun s ev => ⟨fun h => post_of_empty h ev, fun h => post_of_full h ev, rfl, fun t ht => ?_⟩
  by_cases h : s.mbox = none
  · obtain rfl := Option.some.inj ((post_of_empty h ev).symm.trans ht)
    simp [State.tryTake, ← h]
  · simp [post_of_full h ev] at ht

theorem poll_of_empty {s : State} (h : s.mbox = none) : s.poll = s := by
  rcases poll_cases s with ⟨-, hpoll⟩ | ⟨ev, hev, -⟩
  · exact hpoll
  · simp [h] at hev

theorem poll_of_full {s : State} {ev : InterruptEvent} (h : s.mbox = some ev) :
    s.poll = State.trapBeforeFetch { s with mbox := none } ev.call := by
  simp [State.poll, State.tryTake, h]

/-- Settles O37: the poll of a full slot is the call of its event from the state with the slot empty. -/
theorem pollDispatchesTheEvent : Obligations.PollDispatchesTheEvent := by
  refine fun s => ⟨poll_of_empty, fun dev addr data kind hmbox => ?_⟩
  rw [poll_of_full hmbox]
  refine ⟨by simp, by simp, ?_, fun k rest hanswers hwf => ?_⟩
  · rw [trapBeforeFetch_log]
    cases kind <;> rfl
  · have hreply (c : TrapCall) : State.kernelReply { s with mbox := none } c = (k, { s.env with answers := rest }) :=
      kernelReply_of_settled hanswers
    have hwritten := trapBeforeFetch_answerWritten (s := { s with mbox := none })
      (c := InterruptEvent.call ⟨kind, dev, addr, data⟩) hwf
    rw [hreply] at hwritten
    exact ⟨hwritten, by simp [hreply], by simp [hreply]⟩

end Sys2Proof.Machine
end

section
/-! PROOFS. What an instruction can do, said once for all fourteen (50_engine_cycle.md R194; 60_exceptions.md R224, R253): it raises
one synchronous trap from the state it found, or it leaves other registers, another memory and another `pc_hold`, and nothing
else. The slot and the posts still to come decide nothing of it. -/

namespace Sys2Proof.Machine

/-! ### The terms -/

/-- The state after an instruction that completes: other registers, memory and `pc_hold`, and nothing else. -/
def State.completed (s : State) (x : Regs) (m : Memory) (hold : Bool) : State :=
  { s with regs := x, mem := m, pcHold := hold }

section completed
variable (s : State) (x : Regs) (m : Memory) (hold : Bool)

@[simp] theorem completed_regs : (s.completed x m hold).regs = x := rfl
@[simp] theorem completed_mem : (s.completed x m hold).mem = m := rfl
@[simp] theorem completed_ticks : (s.completed x m hold).ticks = s.ticks := rfl
@[simp] theorem completed_mbox : (s.completed x m hold).mbox = s.mbox := rfl
@[simp] theorem completed_halted : (s.completed x m hold).halted = s.halted := rfl
@[simp] theorem completed_cfg : (s.completed x m hold).cfg = s.cfg := rfl
@[simp] theorem completed_env : (s.completed x m hold).env = s.env := rfl

end completed

/-- Whatever the slot holds and whatever is still to be posted, the operation answers `g` of the state. -/
def SlotBlind (f : State → Result) (s : State) (g : State → State) : Prop :=
  ∀ m ps, f (s.withSlot m ps) = .next (g (s.withSlot m ps))

theorem SlotBlind.next {f : State → Result} {s : State} {g : State → State} (h : SlotBlind f s g) : f s = .next (g s) :=
  h s.mbox s.env.posts

/-- The instructions that translate an address. -/
def Opcode.translates (o : Opcode) : Prop :=
  o = .branch ∨ o = .bne ∨ o = .blt ∨ o = .push ∨ o = .pop ∨ o = .load ∨ o = .save

/-- Every register field of the instruction names a register (R105). -/
def fieldsNamed (s : State) (i : Instr) : Prop := ∀ w ∈ i.regFields, ∃ r, s.regField w = some r

/-- Which traps an instruction can raise (R221 to R225). -/
inductive Raises (s : State) (i : Instr) : TrapCall → Prop
  | illegal (h : ∃ w ∈ i.regFields, s.regField w = none) : Raises s i .illegalInstruction
  | divide (hf : fieldsNamed s i) (h : i.opcode = .div) : Raises s i .divideByZero
  | system (h : i = .trap) : Raises s i .systemCall
  | memory (w : Word) (hf : fieldsNamed s i) (h : Opcode.translates i.opcode) : Raises s i (.illegalMemoryAccess w)

/-- The memory is the state's own, or that with one register stored at an address that translates. -/
def StoresAtMostOne (s : State) (m : Memory) : Prop :=
  m = s.mem ∨ ∃ va pa r, s.translate va = some pa ∧ m = s.mem.write pa (s.reg r)

/-- The registers, the memory and the operands of the instruction hold words. -/
structure HoldsWords (s : State) (i : Instr) : Prop where
  regs : s.regs.fits s.cfg.xlen = true
  mem : s.mem.fits s.cfg.xlen = true
  operands : i.fits s.cfg.xlen = true

theorem HoldsWords.reg {s : State} {i : Instr} (h : HoldsWords s i) (r : Reg) : isWord s.cfg.xlen (s.reg r) = true :=
  (Regs.fits_iff _ _).1 h.regs r

/-- The two outcomes of an instruction. -/
inductive Meaning (s : State) (i : Instr) : Prop
  | raises (c : TrapCall) (hc : Raises s i c) (h : SlotBlind (exec i) s fun t => t.trap c)
  | completes (x : Regs) (m : Memory) (hold : Bool) (hm : StoresAtMostOne s m)
      (hx : HoldsWords s i → x.fits s.cfg.xlen = true) (h : SlotBlind (exec i) s fun t => t.completed x m hold)

/-! ### The shapes of an outcome -/

section
variable {s : State} {i : Instr}

/-- An instruction that writes one register. -/
theorem Meaning.of_setReg {d : Reg} {v : Word} (h : SlotBlind (exec i) s fun t => t.setReg d v)
    (hv : HoldsWords s i → isWord s.cfg.xlen v = true) : Meaning s i :=
  .completes (s.regs.set d v) s.mem s.pcHold (.inl rfl) (fun hw => Regs.set_fits hw.regs d (hv hw)) h

/-- An instruction that does nothing. -/
theorem Meaning.of_unchanged (h : SlotBlind (exec i) s id) : Meaning s i :=
  .completes s.regs s.mem s.pcHold (.inl rfl) (fun hw => hw.regs) h

/-- An instruction that takes a branch (R150). -/
theorem Meaning.of_takeBranch {addr : Word} (hi : Opcode.translates i.opcode) (hf : fieldsNamed s i)
    (hv : i.fits s.cfg.xlen = true → isWord s.cfg.xlen addr = true)
    (h : ∀ m ps, exec i (s.withSlot m ps) = (s.withSlot m ps).takeBranch addr) : Meaning s i := by
  cases hpa : s.translate addr with
  | some pa =>
    exact .completes (s.regs.set .pc addr) s.mem true (.inl rfl) (fun hw => Regs.set_fits hw.regs .pc (hv hw.operands))
      fun m ps => (h m ps).trans (takeBranch_of_translate_some (s := s.withSlot m ps) hpa)
  | none =>
    exact .raises _ (.memory addr hf hi) fun m ps =>
      (h m ps).trans (takeBranch_of_translate_none (s := s.withSlot m ps) hpa)

end

/-! ### The fourteen instructions -/

/-- One below a positive word is a word. -/
theorem isWord_pred {xlen : Nat} {n : Int} (h : isWord xlen n = true) (hn : 0 < n) : isWord xlen (n - 1) = true := by
  rcases Nat.eq_zero_or_pos xlen with rfl | hx
  · have h0 : wrap 0 n = 0 := by simp [wrap]
    have := wrap_of_isWord h
    omega
  · rw [isWord_iff_range hx] at h ⊢
    omega

section instructions
variable {s : State}

theorem push_meaning {r : Word} {d : Reg} (hf : fieldsNamed s (.push r)) (hd : s.regField r = some d) :
    Meaning s (.push r) := by
  cases hpa : s.translate (s.stackVa (s.reg .sp)) with
  | some pa =>
    exact .completes (s.regs.set .sp (wrap s.cfg.xlen (s.reg .sp + 1))) (s.mem.write pa (s.reg d)) s.pcHold
      (.inr ⟨_, pa, d, hpa, rfl⟩) (fun hw => Regs.set_fits hw.regs .sp (isWord_wrap _ _))
      fun m ps => execPush_of_translate_some (s := s.withSlot m ps) hd hpa
  | none =>
    exact .raises _ (.memory (faultWord s.cfg.xlen (s.stackVa (s.reg .sp))) hf (by simp [Opcode.translates, Instr.opcode]))
      fun m ps => execPush_of_translate_none (s := s.withSlot m ps) hd hpa

theorem pop_meaning {r : Word} {d : Reg} (hf : fieldsNamed s (.pop r)) (hd : s.regField r = some d) :
    Meaning s (.pop r) := by
  rcases le_or_gt (s.reg .sp) 0 with hsp | hsp
  · exact .of_unchanged fun m ps => execPop_of_empty (s := s.withSlot m ps) hd hsp
  · cases hpa : s.translate (s.stackVa (s.reg .sp - 1)) with
    | some pa =>
      exact .completes ((s.regs.set .sp (s.reg .sp - 1)).set d (s.mem.read pa)) s.mem s.pcHold (.inl rfl)
        (fun hw => Regs.set_fits (Regs.set_fits hw.regs .sp (isWord_pred (hw.reg .sp) hsp)) d
          (Memory.read_fits _ _ pa hw.mem))
        fun m ps => execPop_of_translate_some (s := s.withSlot m ps) hd hsp hpa
    | none =>
      exact .raises _ (.memory (faultWord s.cfg.xlen (s.stackVa (s.reg .sp - 1))) hf (by simp [Opcode.translates, Instr.opcode]))
        fun m ps => execPop_of_translate_none (s := s.withSlot m ps) hd hsp hpa

theorem load_meaning {rd ra : Word} {d a : Reg} (hf : fieldsNamed s (.load rd ra)) (hd : s.regField rd = some d)
    (ha : s.regField ra = some a) : Meaning s (.load rd ra) := by
  cases hpa : s.translate (s.reg a) with
  | some pa =>
    exact .of_setReg (v := s.mem.read pa) (fun m ps => execLoad_of_translate_some (s := s.withSlot m ps) hd ha hpa)
      fun hw => Memory.read_fits _ _ pa hw.mem
  | none =>
    exact .raises _ (.memory (s.reg a) hf (by simp [Opcode.translates, Instr.opcode]))
      fun m ps => execLoad_of_translate_none (s := s.withSlot m ps) hd ha hpa

theorem save_meaning {rs ra : Word} {d a : Reg} (hf : fieldsNamed s (.save rs ra)) (hd : s.regField rs = some d)
    (ha : s.regField ra = some a) : Meaning s (.save rs ra) := by
  cases hpa : s.translate (s.reg a) with
  | some pa =>
    exact .completes s.regs (s.mem.write pa (s.reg d)) s.pcHold (.inr ⟨_, pa, d, hpa, rfl⟩) (fun hw => hw.regs)
      fun m ps => execSave_of_translate_some (s := s.withSlot m ps) hd ha hpa
  | none =>
    exact .raises _ (.memory (s.reg a) hf (by simp [Opcode.translates, Instr.opcode]))
      fun m ps => execSave_of_translate_none (s := s.withSlot m ps) hd ha hpa

theorem div_meaning {rd rs1 rs2 : Word} {d a b : Reg} (hf : fieldsNamed s (.div rd rs1 rs2))
    (hd : s.regField rd = some d) (ha : s.regField rs1 = some a) (hb : s.regField rs2 = some b) :
    Meaning s (.div rd rs1 rs2) := by
  by_cases hzero : s.reg b = 0
  · exact .raises _ (.divide hf rfl) fun m ps => execDiv_of_eq_zero (s := s.withSlot m ps) hd ha hb hzero
  · exact .of_setReg (v := wrap s.cfg.xlen (sdiv (s.reg a) (s.reg b)))
      (fun m ps => execDiv_of_ne_zero (s := s.withSlot m ps) hd ha hb hzero) fun _ => isWord_wrap _ _

/-- ADD, SUB and MUL. -/
theorem arith_meaning {i : Instr} {op : Int → Int → Int} {rd rs1 rs2 : Word} {d a b : Reg}
    (hi : exec i = fun t => t.arith op rd rs1 rs2) (hd : s.regField rd = some d) (ha : s.regField rs1 = some a)
    (hb : s.regField rs2 = some b) : Meaning s i :=
  .of_setReg (v := wrap s.cfg.xlen (op (s.reg a) (s.reg b)))
    (fun m ps => (congrFun hi _).trans (withReg_three (s := s.withSlot m ps) _ hd ha hb)) fun _ => isWord_wrap _ _

theorem bne_meaning {ra rb addr : Word} {a b : Reg} (hf : fieldsNamed s (.bne ra rb addr))
    (ha : s.regField ra = some a) (hb : s.regField rb = some b) : Meaning s (.bne ra rb addr) := by
  by_cases heq : s.reg a = s.reg b
  · exact .of_unchanged fun m ps => execBne_of_eq (s := s.withSlot m ps) ha hb heq
  · exact .of_takeBranch (by simp [Opcode.translates, Instr.opcode]) hf (by simp [Instr.fits, Instr.immediates])
      fun m ps => execBne_of_ne (s := s.withSlot m ps) ha hb heq

theorem blt_meaning {ra rb addr : Word} {a b : Reg} (hf : fieldsNamed s (.blt ra rb addr))
    (ha : s.regField ra = some a) (hb : s.regField rb = some b) : Meaning s (.blt ra rb addr) := by
  rcases le_or_gt (s.reg b) (s.reg a) with hle | hlt
  · exact .of_unchanged fun m ps => execBlt_of_le (s := s.withSlot m ps) ha hb hle
  · exact .of_takeBranch (by simp [Opcode.translates, Instr.opcode]) hf (by simp [Instr.fits, Instr.immediates])
      fun m ps => execBlt_of_lt (s := s.withSlot m ps) ha hb hlt

/-- What an instruction does whose fields name registers. -/
theorem meaning_of_fieldsNamed {i : Instr} (hf : fieldsNamed s i) : Meaning s i := by
  have hnamed := hf
  cases i <;> simp only [fieldsNamed, Instr.regFields, List.mem_cons, List.not_mem_nil, or_false, forall_eq_or_imp,
    forall_eq] at hnamed
  case set rd imm =>
    obtain ⟨d, hd⟩ := hnamed
    exact .of_setReg (fun m ps => execSet_of_regField (s := s.withSlot m ps) imm hd)
      fun hw => (by simpa [Instr.fits, Instr.regFields, Instr.immediates] using hw.operands : _ ∧ _).2
  case add => obtain ⟨⟨d, hd⟩, ⟨a, ha⟩, b, hb⟩ := hnamed; exact arith_meaning rfl hd ha hb
  case sub => obtain ⟨⟨d, hd⟩, ⟨a, ha⟩, b, hb⟩ := hnamed; exact arith_meaning rfl hd ha hb
  case mul => obtain ⟨⟨d, hd⟩, ⟨a, ha⟩, b, hb⟩ := hnamed; exact arith_meaning rfl hd ha hb
  case div => obtain ⟨⟨d, hd⟩, ⟨a, ha⟩, b, hb⟩ := hnamed; exact div_meaning hf hd ha hb
  case copy =>
    obtain ⟨⟨d, hd⟩, a, ha⟩ := hnamed
    exact .of_setReg (v := s.reg a) (fun m ps => execCopy_of_regFields (s := s.withSlot m ps) hd ha)
      fun hw => hw.reg a
  case branch addr =>
    exact .of_takeBranch (by simp [Opcode.translates, Instr.opcode]) hf (by simp [Instr.fits, Instr.immediates])
      fun m ps => rfl
  case bne => obtain ⟨⟨a, ha⟩, b, hb⟩ := hnamed; exact bne_meaning hf ha hb
  case blt => obtain ⟨⟨a, ha⟩, b, hb⟩ := hnamed; exact blt_meaning hf ha hb
  case pop => obtain ⟨d, hd⟩ := hnamed; exact pop_meaning hf hd
  case push => obtain ⟨d, hd⟩ := hnamed; exact push_meaning hf hd
  case load => obtain ⟨⟨d, hd⟩, a, ha⟩ := hnamed; exact load_meaning hf hd ha
  case save => obtain ⟨⟨d, hd⟩, a, ha⟩ := hnamed; exact save_meaning hf hd ha
  case trap => exact .raises _ (.system rfl) fun m ps => rfl

/-- What every instruction does in every state. -/
theorem exec_meaning (s : State) (i : Instr) : Meaning s i := by
  by_cases hbad : ∃ w ∈ i.regFields, s.regField w = none
  · exact .raises _ (.illegal hbad) fun m ps => exec_illegal (s := s.withSlot m ps) hbad
  · refine meaning_of_fieldsNamed fun w hw => Option.ne_none_iff_exists'.1 fun hnone => hbad ⟨w, hw, hnone⟩

end instructions

/-! ### The statements -/

/-- Every instruction answers a next state in every state (R182). -/
theorem exists_exec (s : State) (i : Instr) : ∃ d, exec i s = .next d := by
  cases exec_meaning s i with
  | raises c _ h => exact ⟨_, h.next⟩
  | completes x m hold _ _ h => exact ⟨_, h.next⟩

theorem Raises.synchronous {s : State} {i : Instr} {c : TrapCall} (h : Raises s i c) : c.synchronous = true := by
  cases h <;> rfl

/-- Settles O25: both outcomes of an instruction answer a next state. -/
theorem instructionsArePrecise : Obligations.InstructionsArePrecise := by
  intro s i
  cases exec_meaning s i with
  | raises c hc h => exact .inl ⟨c, hc.synchronous, h.next⟩
  | completes x m hold _ _ h => exact .inr ⟨_, h.next, rfl, rfl, rfl, rfl, rfl⟩

/-- An instruction whose fields name registers is well formed (R105). -/
theorem fieldsNamed.wellFormed {s : State} {i : Instr} (h : fieldsNamed s i) (hbij : s.cfg.regnum.bijective = true) :
    i.wellFormed ≠ false := by
  rw [Ne, wellFormed_eq_false_iff hbij]
  rintro ⟨w, hw, hnone⟩
  obtain ⟨r, hr⟩ := h w hw
  simp [hr] at hnone

/-- Settles O26: a call in the log rules the outcome without one out, and the traps an instruction can raise are listed. -/
theorem trapKindsBelongToInstructions : Obligations.TrapKindsBelongToInstructions := by
  intro s t i c hbij ht hlog
  cases exec_meaning s i with
  | completes x m hold _ _ h =>
    obtain rfl := Host.Outcome.next.inj (ht.symm.trans h.next)
    simp at hlog
  | raises c' hc h =>
    obtain rfl := Host.Outcome.next.inj (ht.symm.trans h.next)
    obtain rfl : c' = c := by simpa [State.recordOf] using hlog
    cases hc with
    | illegal hbad =>
      have hne : i.opcode ≠ .trap := by
        intro htrap
        cases i <;> simp [Instr.opcode, Instr.regFields] at htrap hbad
      simp [hne, (wellFormed_eq_false_iff hbij i).2 hbad]
    | divide hf hi => simp [hi, hf.wellFormed hbij]
    | system hi => simp [hi, Instr.opcode, Instr.wellFormed, Instr.regFields]
    | memory w hf hi =>
      have hne : i.opcode ≠ .trap := by
        intro htrap
        simp [Opcode.translates, htrap] at hi
      exact ⟨by simp, by simp [hne], by simp [hf.wellFormed hbij], fun _ _ => hi⟩

end Sys2Proof.Machine
end

section
/-! PROOFS. The cycle (50_engine_cycle.md): sub-steps (b) to (d) and (e) to (f) by their outcomes, the step by the sub-step it
reaches, and the statements about them. -/

namespace Sys2Proof.Machine

/-! ### Sub-steps (b), (c) and (d) -/

/-- The words of a fetch from a memory of words are words (R76). -/
theorem fetch_fits {s : State} {w : Tuple} (h : s.fetch = some w) (hm : s.mem.fits s.cfg.xlen = true) :
    w.fits s.cfg.xlen = true := by
  obtain ⟨pa, -, -, rfl⟩ := fetchAt_eq_some_iff.1 h
  simp [Tuple.fits, Memory.read_fits _ _ _ hm]

/-- The operands of a decoded instruction are words of its tuple. -/
theorem decode_fits {m : OpcMap} {w : Tuple} {i : Instr} {xlen : Nat} (h : decode m w = .ok i)
    (hw : w.fits xlen = true) : i.fits xlen = true := by
  simp only [Tuple.fits, Bool.and_eq_true] at hw
  obtain ⟨⟨⟨-, h1⟩, h2⟩, h3⟩ := hw
  unfold decode at h
  split at h
  · next o _ =>
    obtain rfl := Except.ok.inj h
    cases o <;> simp [Opcode.operands, Instr.fits, Instr.regFields, Instr.immediates, h1, h2, h3]
  · cases h

/-- A fetch that fails raises the memory fault that carries PC (R192). -/
theorem fetchExecute_of_fetch_none {s : State} (h : s.fetch = none) :
    s.fetchExecute = .next (s.trap (.illegalMemoryAccess (s.reg .pc))) := by
  simp [State.fetchExecute, h, State.raiseMemory, State.raise]

/-- The two outcomes of sub-steps (b) to (d), which the slot and the posts still to come do not decide (R192 to R194). -/
inductive Execution (s : State) : Prop
  | raises (c : TrapCall) (hc : c.synchronous = true) (h : SlotBlind State.fetchExecute s fun t => t.trap c)
  | completes (x : Regs) (m : Memory) (hold : Bool) (hm : StoresAtMostOne s m)
      (hx : s.regs.fits s.cfg.xlen = true → s.mem.fits s.cfg.xlen = true → x.fits s.cfg.xlen = true)
      (h : SlotBlind State.fetchExecute s fun t => t.completed x m hold)

/-- What sub-steps (b) to (d) do in every state. -/
theorem fetchExecute_execution (s : State) : Execution s := by
  cases hf : s.fetch with
  | none => exact .raises (.illegalMemoryAccess (s.reg .pc)) rfl fun m ps => fetchExecute_of_fetch_none (s := s.withSlot m ps) hf
  | some w =>
    cases hi : decode s.cfg.opc w with
    | error e =>
      obtain ⟨w0⟩ := e
      refine .raises .illegalInstruction rfl fun m ps => ?_
      have hf' : (s.withSlot m ps).fetch = some w := hf
      simp [State.fetchExecute, hf', hi, State.raise]
    | ok i =>
      have hblind {g : State → State} (h : SlotBlind (exec i) s g) : SlotBlind State.fetchExecute s g := fun m ps =>
        (fetchExecute_of_decode (s := s.withSlot m ps) hf hi).trans (h m ps)
      cases exec_meaning s i with
      | raises c hc h => exact .raises c hc.synchronous (hblind h)
      | completes x m hold hm hx h =>
        exact .completes x m hold hm (fun hregs hmem => hx ⟨hregs, hmem, decode_fits hi (fetch_fits hf hmem)⟩) (hblind h)

/-- Sub-steps (b) to (d) answer a next state in every state (R182). -/
theorem exists_fetchExecute (s : State) : ∃ d, s.fetchExecute = .next d := by
  cases fetchExecute_execution s with
  | raises c _ h => exact ⟨_, h.next⟩
  | completes x m hold _ _ h => exact ⟨_, h.next⟩

/-! ### Sub-steps (e) and (f) -/

section finish
variable {s : State}

/-- With the clock due, sub-step (e) counts and calls its handler (R196). -/
theorem tick_of_due (h : (s.ticks + 1) % s.cfg.clockPeriod = 0) : s.tick = s.countTick.trap .clock := by
  simp [State.tick, State.clockDue, h]

theorem advance_of_pcHold (h : s.pcHold = true) : s.advance = s := by simp [State.advance, h]

theorem finish_of_halted (h : s.halted = true) : s.finish = s := by simp [State.finish, h]

theorem finish_of_tick_halted (h : s.halted = false) (ht : s.tick.halted = true) : s.finish = s.tick := by
  simp [State.finish, h, ht]

theorem finish_of_running (h : s.halted = false) (ht : s.tick.halted = false) : s.finish = s.tick.advance := by
  simp [State.finish, h, ht]

/-- A cycle whose `pc_hold` is set ends where it stands but for the tick (R197). -/
theorem finish_of_held (h : s.halted = false) (hp : s.pcHold = true) (hc : (s.ticks + 1) % s.cfg.clockPeriod ≠ 0) :
    s.finish = s.countTick := by
  rw [finish_of_not_due h hc, advance_of_pcHold (s := s.countTick) hp]

/-- A cycle whose `pc_hold` is clear ends four words further (R197). -/
theorem finish_of_not_held (h : s.halted = false) (hp : s.pcHold = false) (hc : (s.ticks + 1) % s.cfg.clockPeriod ≠ 0) :
    s.finish = s.countTick.setReg .pc (wrap s.cfg.xlen (s.reg .pc + 4)) := by
  rw [finish_of_not_due h hc, advance_of_pcHold_clear (s := s.countTick) hp, countTick_cfg, countTick_reg]

end finish

/-- Settles O43: the count made decides whether the clock's handler is called. -/
theorem tickCallsClockWhenDue : Obligations.TickCallsClockWhenDue := by
  refine fun s => ⟨tick_of_not_due, fun h => ⟨tick_of_due h, ?_⟩⟩
  rw [tick_of_due h, trap_log]
  rfl

/-- Settles O44: the three ends of a cycle, by the two bits. -/
theorem finishAdvancesUnlessHeldOrHalted : Obligations.FinishAdvancesUnlessHeldOrHalted := by
  refine fun s => ⟨finish_of_halted, fun h hend => ?_, fun h ht hp => ?_⟩
  · by_cases ht : s.tick.halted = true
    · exact finish_of_tick_halted h ht
    · have hp : s.tick.pcHold = true := hend.resolve_left ht
      rw [finish_of_running h (by simpa using ht), advance_of_pcHold hp]
  · rw [finish_of_running h ht, advance_of_pcHold_clear hp, tick_cfg]
    exact ⟨setReg_reg_same _ .pc _, setReg_regsOnly _ .pc _⟩

/-- Settles O48: the response bits of the answer are the two bits that decide the end of the cycle. -/
theorem handlerAnswerDecidesThePc : Obligations.HandlerAnswerDecidesThePc := by
  intro s c k rest hh hp hanswers hdue
  have hreply : s.kernelReply c = (k, { s.env with answers := rest }) := kernelReply_of_settled hanswers
  have hticks : (s.trap c).ticks = s.ticks + k.addTicks := by simp [hreply]
  have hhalted : (s.trap c).halted = k.halt := by simp [hreply, hh]
  have hhold : (s.trap c).pcHold = (!k.halt && k.holdPc) := by simp [hreply, hp]
  have hdue' : ((s.trap c).ticks + 1) % (s.trap c).cfg.clockPeriod ≠ 0 := by rwa [hticks, trap_cfg]
  refine ⟨fun hk => ?_, fun hk hkp => ?_, fun hk hkp => ?_⟩
  · rw [hk] at hhalted
    rw [finish_of_halted hhalted]
    exact ⟨rfl, hticks, hhalted⟩
  · rw [finish_of_held (hhalted.trans hk) (hhold.trans (by simp [hk, hkp])) hdue', countTick_ticks, hticks]
    exact ⟨rfl, rfl⟩
  · rw [finish_of_not_held (hhalted.trans hk) (hhold.trans (by simp [hk, hkp])) hdue', setReg_reg_same, setReg_ticks,
      countTick_ticks, hticks, trap_cfg]
    exact ⟨rfl, rfl⟩

/-! ### The step by the sub-step it reaches -/

section step
variable {s : State}

/-- A `HALT` answer at the poll leaves the cycle at the device agents' turn after the take (R199). -/
theorem step_of_poll_halted (hc : configOk s.cfg = true) (hh : s.halted = false)
    (hp : s.deviceTurn.poll.halted = true) : step s = .next s.deviceTurn.poll.deviceTurn := by
  simp [step, machineStep, cycle, hc, hh, hp]

/-- A halted engine leaves the device agents their turn (R200). -/
theorem step_of_halted (hc : configOk s.cfg = true) (hh : s.halted = true) (hd : s.deviceCanMove = true) :
    step s = .next s.deviceTurn := by
  simp [step, machineStep, hc, hh, hd]

theorem step_of_stopped (hc : configOk s.cfg = true) (hh : s.halted = true) (hd : s.deviceCanMove = false) :
    step s = .fault .engineHalted := by
  simp [step, machineStep, hc, hh, hd]

/-- A running engine in a configuration of the block steps to a next state (R182). -/
theorem exists_step (hc : configOk s.cfg = true) (hh : s.halted = false) : ∃ t, step s = .next t := by
  cases hp : s.deviceTurn.poll.halted with
  | true => exact ⟨_, step_of_poll_halted hc hh hp⟩
  | false =>
    obtain ⟨d, hd⟩ := exists_fetchExecute s.atFetch
    exact ⟨_, step_of_fetchExecute_next ⟨hc, hh, hp⟩ hd⟩

theorem deviceTurn_of_no_posts (h : s.env.posts = []) : s.deviceTurn = s := by simp [State.deviceTurn, h]

theorem deviceTurn_of_idle {rest : List (Option InterruptEvent)} (h : s.env.posts = none :: rest) :
    s.deviceTurn = s.withSlot s.mbox rest := by
  simp [State.deviceTurn, h, State.withSlot]

theorem deviceTurn_of_post {ev : InterruptEvent} {rest : List (Option InterruptEvent)}
    (h : s.env.posts = some ev :: rest) (hm : s.mbox = none) : s.deviceTurn = s.withSlot (some ev) rest := by
  simp [State.deviceTurn, h, post_of_empty hm, State.withSlot]

theorem deviceTurn_of_blocked {ev : InterruptEvent} {rest : List (Option InterruptEvent)}
    (h : s.env.posts = some ev :: rest) (hm : s.mbox ≠ none) : s.deviceTurn = s := by
  simp [State.deviceTurn, h, post_of_full hm]

@[simp] theorem deviceTurn_kappa : s.deviceTurn.env.kappa = s.env.kappa := by rw [deviceTurn_eq_withSlot]; simp

/-! ### A cycle with no event at hand -/

/-- With an empty slot and no posts the fetch starts from the state with `pc_hold` clear (R192). -/
theorem atFetch_of_quiet (hm : s.mbox = none) (hp : s.env.posts = []) : s.atFetch = s.clearHold := by
  simp [State.atFetch, deviceTurn_of_no_posts hp, poll_of_empty hm]

theorem reachesFetch_of_quiet (hc : configOk s.cfg = true) (hh : s.halted = false) (hm : s.mbox = none)
    (hp : s.env.posts = []) : s.reachesFetch :=
  ⟨hc, hh, by rw [deviceTurn_of_no_posts hp, poll_of_empty hm, hh]⟩

/-- With no event at hand the step runs the instruction at PC (R192 to R194). -/
theorem step_of_quiet {w : Tuple} {i : Instr} {d : State} (hc : configOk s.cfg = true) (hh : s.halted = false)
    (hm : s.mbox = none) (hp : s.env.posts = []) (hf : s.fetch = some w) (hi : decode s.cfg.opc w = .ok i)
    (hd : exec i s.clearHold = .next d) : step s = .next d.finish := by
  refine step_of_fetchExecute_next (reachesFetch_of_quiet hc hh hm hp) ?_
  rw [atFetch_of_quiet hm hp]
  exact (fetchExecute_of_decode (s := s.clearHold) hf hi).trans hd

end step

/-! ### The statements about the step -/

/-- Settles O42: a fetch that fails makes sub-steps (b) to (d) answer the trap. -/
theorem fetchFaultSkipsExecution : Obligations.FetchFaultSkipsExecution :=
  fun _ hs hf => step_of_fetchExecute_next hs (fetchExecute_of_fetch_none hf)

/-- Settles O45: no sub-step after the poll is performed. -/
theorem haltAtThePollEndsTheCycle : Obligations.HaltAtThePollEndsTheCycle :=
  fun _ => step_of_poll_halted

/-- Settles O46: the only step is the device agents' turn, which the first entry of the schedule and the slot decide. -/
theorem haltedEnginePerformsNothing : Obligations.HaltedEnginePerformsNothing := by
  refine fun s hc hh => ⟨step_of_stopped hc hh, fun hd => ⟨_, step_of_halted hc hh hd, by simp, by simp, by simp,
    by simpa using hh, by simp, by simp, by simp, by simp, by simp, fun hm => ?_, fun ev rest hp hm => ?_,
    fun rest hp => ?_⟩⟩
  · rcases deviceTurn_cases s with h | ⟨_, _, h⟩ | ⟨_, _, _, hempty, _⟩
    · rw [h]
    · rw [h]
    · exact absurd hempty hm
  · rw [deviceTurn_of_post hp hm]
    exact ⟨rfl, rfl⟩
  · rw [deviceTurn_of_idle hp]
    exact ⟨rfl, rfl⟩

/-- Settles O40: at a tuple that decodes, sub-steps (b) to (d) are the instruction's meaning, which answers a next state. -/
theorem stepRunsDecodedInstruction : Obligations.StepRunsDecodedInstruction := by
  refine fun s w i => ⟨fun hs hf hi => ?_, atFetch_of_quiet⟩
  have hexec : s.atFetch.fetchExecute = exec i s.atFetch := fetchExecute_of_decode hf (by simpa using hi)
  obtain ⟨d, hd⟩ := exists_fetchExecute s.atFetch
  rw [step_of_fetchExecute_next hs hd, ← hexec, hd]

theorem configOk_opc_injective {c : Config} (h : configOk c = true) : c.opc.injective = true := by
  simp only [configOk, Bool.and_eq_true] at h
  obtain ⟨⟨⟨⟨⟨-, hopc⟩, -⟩, -⟩, -⟩, -⟩ := h
  exact hopc

/-- Settles O49: the register write leaves `pc_hold` clear, so the advance starts from the word written. -/
theorem setPcContinuesFourFurther : Obligations.SetPcContinuesFourFurther := by
  intro s rd w3 v hc hh hm hp hrd hf hdue
  have hi : decode s.cfg.opc ⟨s.cfg.opc.set, rd, v, w3⟩ = .ok (.set rd v) :=
    decode_of_word (o := .set) (configOk_opc_injective hc) rfl
  have hd : exec (.set rd v) s.clearHold = .next (s.clearHold.setReg .pc v) := execSet_of_regField v hrd
  have hend : (s.clearHold.setReg .pc v).finish =
      (s.clearHold.setReg .pc v).countTick.setReg .pc (wrap s.cfg.xlen (v + 4)) := by
    rw [finish_of_not_held (s := s.clearHold.setReg .pc v) hh rfl hdue, setReg_reg_same]
    rfl
  refine ⟨_, step_of_quiet hc hh hm hp hf hi hd, ?_⟩
  rw [hend]
  refine ⟨setReg_reg_same _ .pc _, rfl, fun q hq => ?_, fun _ => rfl⟩
  have hne : q ≠ .pc := by simpa using hq
  simp [hne]

/-- Settles O50: the branch leaves `pc_hold` set, so nothing but the tick follows it. -/
theorem takenBranchLandsOnTarget : Obligations.TakenBranchLandsOnTarget := by
  intro s addr w2 w3 pa hc hh hm hp hf hpa hdue
  have hi : decode s.cfg.opc ⟨s.cfg.opc.branch, addr, w2, w3⟩ = .ok (.branch addr) :=
    decode_of_word (o := .branch) (configOk_opc_injective hc) rfl
  have hd : exec (.branch addr) s.clearHold = .next { s.clearHold.setReg .pc addr with pcHold := true } :=
    takeBranch_of_translate_some (s := s.clearHold) hpa
  refine ⟨_, step_of_quiet hc hh hm hp hf hi hd, ?_⟩
  rw [finish_of_held (s := { s.clearHold.setReg .pc addr with pcHold := true }) hh rfl hdue]
  refine ⟨setReg_reg_same s.clearHold .pc addr, rfl, fun q hq => ?_, fun _ => rfl⟩
  exact setReg_reg_other s.clearHold .pc addr q (by simpa using hq)

end Sys2Proof.Machine
end

section
/-! PROOFS. What the slot and the posts still to come decide (60_exceptions.md R231, R242 to R244): nothing after the take; and what
a step leaves of them. -/

namespace Sys2Proof.Machine

section withSlot
variable (s : State) (m : Option InterruptEvent) (ps : List (Option InterruptEvent)) (c : TrapCall)

theorem kernelReply_withSlot :
    (s.withSlot m ps).kernelReply c = ((s.kernelReply c).1, { (s.kernelReply c).2 with posts := ps }) := by
  cases h : s.env.answers with
  | nil => rw [kernelReply_of_free h, kernelReply_of_free (s := s.withSlot m ps) h]; rfl
  | cons k rest => rw [kernelReply_of_settled h, kernelReply_of_settled (s := s.withSlot m ps) h]; rfl

theorem kernelCall_withSlot : (s.withSlot m ps).kernelCall c = ((s.kernelCall c).1, (s.kernelCall c).2.withSlot m ps) := by
  unfold State.kernelCall
  rw [kernelReply_withSlot]
  rfl

theorem trap_withSlot : (s.withSlot m ps).trap c = (s.trap c).withSlot m ps := by
  rw [trap_eq, trap_eq, kernelCall_withSlot, kernelReply_withSlot]
  rfl

theorem trapBeforeFetch_withSlot : (s.withSlot m ps).trapBeforeFetch c = (s.trapBeforeFetch c).withSlot m ps := by
  rw [trapBeforeFetch_eq, trapBeforeFetch_eq, kernelCall_withSlot, kernelReply_withSlot]
  rfl

theorem tick_withSlot : (s.withSlot m ps).tick = s.tick.withSlot m ps := by
  by_cases h : (s.ticks + 1) % s.cfg.clockPeriod = 0
  · rw [tick_of_due h, tick_of_due (s := s.withSlot m ps) h]
    exact trap_withSlot s.countTick m ps .clock
  · rw [tick_of_not_due h, tick_of_not_due (s := s.withSlot m ps) h]
    rfl

theorem advance_withSlot : (s.withSlot m ps).advance = s.advance.withSlot m ps := by
  cases h : s.pcHold with
  | true => rw [advance_of_pcHold h, advance_of_pcHold (s := s.withSlot m ps) h]
  | false => rw [advance_of_pcHold_clear h, advance_of_pcHold_clear (s := s.withSlot m ps) h]; rfl

theorem finish_withSlot : (s.withSlot m ps).finish = s.finish.withSlot m ps := by
  cases h : s.halted with
  | true => rw [finish_of_halted h, finish_of_halted (s := s.withSlot m ps) h]
  | false =>
    cases ht : s.tick.halted with
    | true => rw [finish_of_tick_halted h ht, finish_of_tick_halted (s := s.withSlot m ps) h
        (by rwa [tick_withSlot]), tick_withSlot]
    | false => rw [finish_of_running h ht, finish_of_running (s := s.withSlot m ps) h
        (by rwa [tick_withSlot]), tick_withSlot, advance_withSlot]

end withSlot

/-! ### What the parts of a cycle leave of the slot and the posts -/

section slot
variable (s : State)

@[simp] theorem tick_mbox : s.tick.mbox = s.mbox := by
  rcases tick_cases s with h | h <;> simp [h]

@[simp] theorem tick_posts : s.tick.env.posts = s.env.posts := by
  rcases tick_cases s with h | h <;> simp [h]

@[simp] theorem finish_mbox : s.finish.mbox = s.mbox := by
  rcases finish_cases s with ⟨_, h⟩ | ⟨_, _, h⟩ | ⟨_, _, h⟩ <;> simp [h]

@[simp] theorem finish_posts : s.finish.env.posts = s.env.posts := by
  rcases finish_cases s with ⟨_, h⟩ | ⟨_, _, h⟩ | ⟨_, _, h⟩ <;> simp [h]

@[simp] theorem poll_mbox : s.poll.mbox = none := by
  rcases poll_cases s with ⟨hm, h⟩ | ⟨_, _, h⟩ <;> simp [h]
  exact hm

@[simp] theorem poll_posts : s.poll.env.posts = s.env.posts := by
  rcases poll_cases s with ⟨_, h⟩ | ⟨_, _, h⟩ <;> simp [h]

variable {s}

theorem fetchExecute_slot {d : State} (h : s.fetchExecute = .next d) :
    d.mbox = s.mbox ∧ d.env.posts = s.env.posts := by
  cases fetchExecute_execution s with
  | raises c _ hblind =>
    obtain rfl := Host.Outcome.next.inj (h.symm.trans hblind.next)
    simp
  | completes x m hold _ _ hblind =>
    obtain rfl := Host.Outcome.next.inj (h.symm.trans hblind.next)
    simp

/-- A turn of the device agents at an empty slot takes the next entry of the schedule into it (R242). -/
theorem deviceTurn_of_empty (h : s.mbox = none) : s.deviceTurn = s.withSlot s.env.posts.head?.join s.env.posts.tail := by
  rcases hp : s.env.posts with _ | ⟨_ | ev, rest⟩
  · rw [deviceTurn_of_no_posts hp]
    change s = s.withSlot none []
    rw [← h, ← hp]
    rfl
  · rw [deviceTurn_of_idle hp, h]
    rfl
  · rw [deviceTurn_of_post hp h]
    rfl

/-- After a step of a running engine the slot holds what was posted at the turn after the take (R231, R243). -/
theorem step_slot {t : State} (hh : s.halted = false) (h : step s = .next t) :
    t.mbox = s.deviceTurn.env.posts.head?.join ∧ t.env.posts = s.deviceTurn.env.posts.tail := by
  have hafter : s.deviceTurn.poll.deviceTurn =
      s.deviceTurn.poll.withSlot s.deviceTurn.env.posts.head?.join s.deviceTurn.env.posts.tail := by
    rw [deviceTurn_of_empty (poll_mbox _), poll_posts]
  obtain ⟨-, ⟨hh', -⟩ | ⟨-, -, rfl⟩ | ⟨-, -, d, hd, rfl⟩⟩ := step_cases h
  · simp [hh] at hh'
  · rw [hafter]
    exact ⟨rfl, rfl⟩
  · obtain ⟨hm, hp⟩ := fetchExecute_slot hd
    rw [finish_mbox, finish_posts, hm, hp, State.atFetch, hafter]
    exact ⟨rfl, rfl⟩

end slot

/-- Settles O39: fetch and execution, the end of the cycle and a call each commute with another content of slot and schedule. -/
theorem postMomentIsInvisible : Obligations.PostMomentIsInvisible := by
  refine fun s m ps => ⟨?_, finish_withSlot s m ps, finish_mbox s, finish_posts s, trapBeforeFetch_withSlot s m ps⟩
  have hslot {d : State} (hd : s.fetchExecute = .next d) (hblind : (s.withSlot m ps).fetchExecute = .next (d.withSlot m ps)) :
      ∃ d, s.fetchExecute = .next d ∧ (s.withSlot m ps).fetchExecute = .next (d.withSlot m ps) ∧
        d.mbox = s.mbox ∧ d.env.posts = s.env.posts := ⟨d, hd, hblind, fetchExecute_slot hd⟩
  cases fetchExecute_execution s with
  | raises c _ h => exact hslot h.next ((h m ps).trans (congrArg _ (trap_withSlot s m ps c)))
  | completes x mem hold _ _ h => exact hslot h.next (h m ps)

end Sys2Proof.Machine
end

section
/-! PROOFS. The calls that leave the trap port in a step (50_engine_cycle.md R201), in the order of the sub-steps, and the delivery of
an event (60_exceptions.md R231, R247). -/

namespace Sys2Proof.Machine

/-- The log of `t` is that of `s` with at most one record added, of a call that `p` holds of. -/
def AddsAtMostOne (p : TrapCall → Prop) (s t : State) : Prop :=
  ∃ l : List TrapRecord, t.env.log = l ++ s.env.log ∧ l.length ≤ 1 ∧ ∀ r ∈ l, p r.call

section
variable {p : TrapCall → Prop} {s t : State}

theorem AddsAtMostOne.of_log_eq (h : t.env.log = s.env.log) : AddsAtMostOne p s t := ⟨[], h, by simp, by simp⟩

theorem AddsAtMostOne.of_call {r : TrapRecord} (h : t.env.log = r :: s.env.log) (hr : p r.call) :
    AddsAtMostOne p s t := ⟨[r], h, by simp, by simpa using hr⟩

end

theorem call_completion (ev : InterruptEvent) : ev.call.completion = true := by
  unfold InterruptEvent.call
  split <;> rfl

/-- The poll makes at most one call, of a completion kind (R191). -/
theorem poll_calls (s : State) : AddsAtMostOne (fun c => c.completion = true) s s.poll := by
  rcases poll_cases s with ⟨-, h⟩ | ⟨ev, -, h⟩ <;> rw [h]
  · exact .of_log_eq rfl
  · exact .of_call (trapBeforeFetch_log _ _) (call_completion ev)

/-- Sub-steps (b) to (d) make at most one call, of a synchronous kind (R192 to R194). -/
theorem fetchExecute_calls {s d : State} (h : s.fetchExecute = .next d) :
    AddsAtMostOne (fun c => c.synchronous = true) s d := by
  cases fetchExecute_execution s with
  | raises c hc hblind =>
    obtain rfl := Host.Outcome.next.inj (h.symm.trans hblind.next)
    exact .of_call (trap_log s c) hc
  | completes x m hold _ _ hblind =>
    obtain rfl := Host.Outcome.next.inj (h.symm.trans hblind.next)
    exact .of_log_eq rfl

theorem tick_calls (s : State) : AddsAtMostOne (· = .clock) s s.tick := by
  rcases tick_cases s with h | h <;> rw [h]
  · exact .of_log_eq rfl
  · exact .of_call (trap_log s.countTick .clock) rfl

/-- Sub-steps (e) and (f) make at most one call, of the clock (R196). -/
theorem finish_calls (s : State) : AddsAtMostOne (· = .clock) s s.finish := by
  rcases finish_cases s with ⟨-, h⟩ | ⟨-, -, h⟩ | ⟨-, -, h⟩ <;> rw [h]
  · exact .of_log_eq rfl
  · exact tick_calls s
  · simpa [AddsAtMostOne] using tick_calls s

/-- A step makes the poll's call, then one of (b) to (d), then the clock's, each at most once (R201). -/
theorem step_calls {s t : State} (h : step s = .next t) : ∃ u d : State,
    AddsAtMostOne (fun c => c.completion = true) s u ∧ AddsAtMostOne (fun c => c.synchronous = true) u d ∧
      AddsAtMostOne (· = .clock) d t ∧ (s.halted = false → u.env.log = s.deviceTurn.poll.env.log) := by
  obtain ⟨-, ⟨hh, -, rfl⟩ | ⟨-, -, rfl⟩ | ⟨-, -, d, hd, rfl⟩⟩ := step_cases h
  · exact ⟨s, s, .of_log_eq rfl, .of_log_eq rfl, .of_log_eq (by simp), by simp [hh]⟩
  · have hpoll := poll_calls s.deviceTurn
    refine ⟨s.deviceTurn.poll, s.deviceTurn.poll, ?_, .of_log_eq rfl, .of_log_eq (by simp), fun _ => rfl⟩
    simpa [AddsAtMostOne] using hpoll
  · have hpoll := poll_calls s.deviceTurn
    refine ⟨s.atFetch, d, ?_, fetchExecute_calls hd, finish_calls d, fun _ => atFetch_log s⟩
    simpa [AddsAtMostOne, atFetch_log] using hpoll

/-- Settles O47: the records of the three parts of the cycle. -/
theorem atMostThreeKernelCalls : Obligations.AtMostThreeKernelCalls := by
  intro s t h
  obtain ⟨u, d, ⟨io, hio, hio1, hiok⟩, ⟨sync, hsync, hsync1, hsynck⟩, ⟨clk, hclk, hclk1, hclkk⟩, -⟩ := step_calls h
  exact ⟨io, sync, clk, by rw [hclk, hsync, hio], hio1, hsync1, hclk1, hiok, hsynck, hclkk⟩

/-- The event in the slot at the poll is the first call of the step (R191, R247). -/
theorem step_delivers {s t : State} {ev : InterruptEvent} (hh : s.halted = false) (h : step s = .next t)
    (hev : s.deviceTurn.mbox = some ev) : ∃ later, t.env.log = later ++ s.recordOf ev.call :: s.env.log := by
  obtain ⟨u, d, -, ⟨sync, hsync, -⟩, ⟨clk, hclk, -⟩, hlog⟩ := step_calls h
  refine ⟨clk ++ sync, ?_⟩
  rw [hclk, hsync, hlog hh, poll_of_full hev, trapBeforeFetch_log, List.append_assoc]
  simp [State.recordOf, State.reg]

/-- Settles O38: the turn before the poll decides what is delivered, and the turn after it what waits in the slot. -/
theorem postsAreDeliveredOnceInOrder : Obligations.PostsAreDeliveredOnceInOrder := by
  intro s t hh h
  have hslot := step_slot hh h
  refine ⟨fun old hold => step_delivers hh h ?_, fun ev rest hp hm => ⟨step_delivers hh h ?_, ?_⟩,
    fun ev rest old hp hm => ?_, fun rest hp => ?_, fun hp => ?_⟩
  · rcases deviceTurn_cases s with hd | ⟨_, _, hd⟩ | ⟨_, _, _, hm, _⟩
    · rw [hd, hold]
    · rw [hd]
      exact hold
    · simp [hold] at hm
  · rw [deviceTurn_of_post hp hm, withSlot_mbox]
  · rwa [deviceTurn_of_post hp hm, withSlot_posts] at hslot
  · rw [deviceTurn_of_blocked hp (by simp [hm]), hp] at hslot
    exact hslot
  · rwa [deviceTurn_of_idle hp, withSlot_posts] at hslot
  · rw [deviceTurn_of_no_posts hp, hp] at hslot
    exact hslot

end Sys2Proof.Machine
end

section
/-! PROOFS. The moves that a step is made of, and what each of them keeps: the invariant (10_state.md R20, R30, R33; 20_memory.md
R61), the configuration (10_state.md R34), the tick counter (R29) and the bit `halted` (R31). -/

namespace Sys2Proof.Machine

/-- One move of a step. -/
inductive Move : State → State → Prop
  | deviceTurn (s : State) : Move s s.deviceTurn
  | poll (s : State) : Move s s.poll
  | clearHold (s : State) : Move s s.clearHold
  | trap (s : State) (c : TrapCall) : Move s (s.trap c)
  | complete {s : State} {x : Regs} {m : Memory} (hold : Bool) (hm : StoresAtMostOne s m)
      (hx : s.regs.fits s.cfg.xlen = true → s.mem.fits s.cfg.xlen = true → x.fits s.cfg.xlen = true) :
      Move s (s.completed x m hold)
  | countTick (s : State) : Move s s.countTick
  | advance (s : State) : Move s s.advance

/-- A number of moves, one after the other. -/
abbrev Moves : State → State → Prop := Relation.ReflTransGen Move

/-! ### A step is moves -/

theorem atFetch_moves (s : State) : Moves s s.atFetch :=
  (((Relation.ReflTransGen.single (.deviceTurn s)).tail (.poll _)).tail (.deviceTurn _)).tail (.clearHold _)

theorem fetchExecute_move {s d : State} (h : s.fetchExecute = .next d) : Move s d := by
  cases fetchExecute_execution s with
  | raises c _ hblind =>
    obtain rfl := Host.Outcome.next.inj (h.symm.trans hblind.next)
    exact .trap s c
  | completes x m hold hm hx hblind =>
    obtain rfl := Host.Outcome.next.inj (h.symm.trans hblind.next)
    exact .complete hold hm hx

theorem tick_moves (s : State) : Moves s s.tick := by
  rcases tick_cases s with h | h <;> rw [h]
  · exact .single (.countTick s)
  · exact (Relation.ReflTransGen.single (.countTick s)).tail (.trap _ .clock)

theorem finish_moves (s : State) : Moves s s.finish := by
  rcases finish_cases s with ⟨-, h⟩ | ⟨-, -, h⟩ | ⟨-, -, h⟩ <;> rw [h]
  · exact tick_moves s
  · exact (tick_moves s).tail (.advance _)

/-- Every step is a number of moves (R203). -/
theorem step_moves {s t : State} (h : step s = .next t) : Moves s t := by
  obtain ⟨-, ⟨-, -, rfl⟩ | ⟨-, -, rfl⟩ | ⟨-, -, d, hd, rfl⟩⟩ := step_cases h
  · exact .single (.deviceTurn s)
  · exact ((Relation.ReflTransGen.single (.deviceTurn s)).tail (.poll _)).tail (.deviceTurn _)
  · exact ((atFetch_moves s).tail (fetchExecute_move hd)).trans (finish_moves d)

/-- The one induction over the moves of a step: a property that each of them keeps holds at the end. -/
theorem moves_keep {P : State → Prop} (hmove : ∀ {u v}, Move u v → P u → P v) {s t : State} (h : Moves s t) (hs : P s) :
    P t := by
  induction h with
  | refl => exact hs
  | tail _ huv ih => exact hmove huv ih

/-! ### The invariant -/

theorem deviceTurn_inv {s : State} (h : s.Inv) : s.deviceTurn.Inv := by
  rcases deviceTurn_cases s with hd | ⟨rest, hp, hd⟩ | ⟨ev, rest, hp, -, hd⟩ <;> rw [hd]
  · exact h
  · exact h.of_parts rfl h.canonical h.inArray h.regs h.mem (fun _ => h.mbox)
      fun e he => hp ▸ List.mem_cons_of_mem _ he
  · refine h.of_parts rfl h.canonical h.inArray h.regs h.mem (fun e he => ?_) fun e he => hp ▸ List.mem_cons_of_mem _ he
    obtain rfl := Option.some.inj he
    exact h.posts (hp ▸ List.mem_cons_self)

theorem poll_inv {s : State} (h : s.Inv) : s.poll.Inv := by
  rcases poll_cases s with ⟨-, hp⟩ | ⟨ev, -, hp⟩ <;> rw [hp]
  · exact h
  · exact trapBeforeFetch_inv _ (h.of_parts rfl h.canonical h.inArray h.regs h.mem (by simp) fun _ he => he)

theorem advance_inv {s : State} (h : s.Inv) : s.advance.Inv := by
  unfold State.advance
  split
  · exact h
  · exact setReg_inv h .pc (isWord_wrap _ _)

/-- An instruction that completes keeps the invariant: what it stores is a register, at an address of the array. -/
theorem completed_inv {s : State} {x : Regs} {m : Memory} (h : s.Inv) (hm : StoresAtMostOne s m)
    (hx : x.fits s.cfg.xlen = true) (hold : Bool) : (s.completed x m hold).Inv := by
  rcases hm with rfl | ⟨va, pa, r, hpa, rfl⟩
  · exact h.of_parts rfl h.canonical h.inArray hx h.mem (fun _ => h.mbox) fun _ he => he
  · have hstore : (s.setPhys pa (s.reg r)).Inv := setPhys_inv h (h.reg r) (translate_lt hpa)
    exact hstore.of_parts rfl hstore.canonical hstore.inArray hx hstore.mem (fun _ => h.mbox) fun _ he => he

theorem Move.inv {s t : State} (h : Move s t) (hs : s.Inv) : t.Inv := by
  cases h with
  | deviceTurn => exact deviceTurn_inv hs
  | poll => exact poll_inv hs
  | clearHold => exact hs.of_parts rfl hs.canonical hs.inArray hs.regs hs.mem (fun _ => hs.mbox) fun _ he => he
  | trap c => exact trap_inv c hs
  | complete hold hm hx => exact completed_inv hs hm (hx hs.regs hs.mem) hold
  | countTick => exact hs.of_parts rfl hs.canonical hs.inArray hs.regs hs.mem (fun _ => hs.mbox) fun _ he => he
  | advance => exact advance_inv hs

/-- Settles O53: each move of the step keeps the invariant. -/
theorem stepKeepsInvariant : Obligations.StepKeepsInvariant :=
  fun _ _ hs h => moves_keep Move.inv (step_moves h) hs

/-- The state after reset meets the invariant, in every configuration of the block, where only words are to be posted. -/
theorem resetWith_inv {c : Config} {e : Env} (hc : configOk c = true)
    (he : ∀ ev, some ev ∈ e.posts → ev.fits c.xlen = true) : (State.resetWith c e).Inv := by
  refine ⟨hc, rfl, rfl, (wordsFit_iff _).2 ⟨(Regs.fits_iff _ _).2 fun r => ?_, rfl, ?_, he⟩⟩
  · cases r <;> exact isWord_zero c.xlen
  · rintro ev ⟨⟩

/-- Settles O52: `State.reset` is such a state, with nothing to be posted. -/
theorem resetMeetsInvariant : Obligations.ResetMeetsInvariant :=
  ⟨resetWith_inv (by decide) (by rintro ev ⟨⟩), fun _ _ => resetWith_inv⟩

/-- Settles O51: the fields of the reset table. -/
theorem resetClearsTheBlock : Obligations.ResetClearsTheBlock := by
  have hregs (c : Config) (e : Env) (r : Reg) : (State.resetWith c e).reg r = 0 := by cases r <;> rfl
  exact ⟨fun s => ⟨hregs s.cfg s.env, fun _ => rfl, rfl, rfl, rfl, rfl, rfl, rfl⟩, hregs _ _, fun _ => rfl, rfl, rfl, rfl, rfl⟩

/-! ### The configuration and the tick counter -/

theorem Move.cfg_eq {s t : State} (h : Move s t) : t.cfg = s.cfg := by cases h <;> simp

/-- Settles O54: no move changes the configuration. -/
theorem configurationIsFixed : Obligations.ConfigurationIsFixed :=
  fun s _ h => moves_keep (P := fun u => u.cfg = s.cfg) (fun huv hu => huv.cfg_eq.trans hu) (step_moves h) rfl

theorem poll_ticks_le (s : State) : s.ticks ≤ s.poll.ticks := by
  rcases poll_cases s with ⟨-, h⟩ | ⟨_, -, h⟩ <;> simp [h]

theorem Move.ticks_le {s t : State} (h : Move s t) : s.ticks ≤ t.ticks := by
  cases h with
  | poll => exact poll_ticks_le s
  | _ => simp

theorem moves_ticks_le {s t : State} (h : Moves s t) : s.ticks ≤ t.ticks :=
  moves_keep (P := fun u => s.ticks ≤ u.ticks) (fun huv hu => hu.trans huv.ticks_le) h le_rfl

theorem lt_tick_ticks (s : State) : s.ticks < s.tick.ticks := by
  rcases tick_cases s with h | h <;> rw [h]
  · simp
  · simp only [trap_ticks, countTick_ticks]
    omega

/-- Settles O55: no move takes ticks back, and a cycle that does not end halted comes to its count. -/
theorem ticksAreMonotonic : Obligations.TicksAreMonotonic := by
  refine fun s t h => ⟨moves_ticks_le (step_moves h), fun hrun => ?_⟩
  obtain ⟨-, ⟨hh, -, rfl⟩ | ⟨-, hh, rfl⟩ | ⟨-, -, d, hd, rfl⟩⟩ := step_cases h
  · simp [hh] at hrun
  · simp [hh] at hrun
  · have hd' : s.ticks ≤ d.ticks := moves_ticks_le ((atFetch_moves s).tail (fetchExecute_move hd))
    rcases finish_cases d with ⟨hh, hf⟩ | ⟨-, hh, hf⟩ | ⟨-, -, hf⟩ <;> rw [hf] at hrun ⊢
    · simp [hh] at hrun
    · simp [hh] at hrun
    · rw [advance_ticks]
      exact hd'.trans_lt (lt_tick_ticks d)

/-! ### The bit `halted` and the answers of the kernel -/

/-- Between the two states the kernel was called `n` times: that many records were added and that many settled answers used up,
as far as there were so many; and nothing but an answer with `HALT` has set `halted` (R198, R199). -/
structure CallsMade (n : Nat) (s t : State) : Prop where
  log : t.env.log.length = s.env.log.length + n
  answers : t.env.answers = s.env.answers.drop n
  stays : s.halted = true → t.halted = true
  silent : n = 0 → t.halted = s.halted
  settled : s.halted = false → n ≤ s.env.answers.length → (∀ k ∈ s.env.answers, k.halt = false) → t.halted = false

section callsMade
variable {s t u : State} {m n : Nat}

theorem CallsMade.none (hlog : t.env.log = s.env.log) (ha : t.env.answers = s.env.answers) (hh : t.halted = s.halted) :
    CallsMade 0 s t := ⟨by rw [hlog]; rfl, by rw [ha]; rfl, hh.trans, fun _ => hh, fun h _ _ => hh.trans h⟩

theorem CallsMade.trans (h : CallsMade m s t) (h' : CallsMade n t u) : CallsMade (m + n) s u where
  log := by rw [h'.log, h.log, Nat.add_assoc]
  answers := by rw [h'.answers, h.answers, List.drop_drop]
  stays := fun hh => h'.stays (h.stays hh)
  silent := fun h0 => (h'.silent (by omega)).trans (h.silent (by omega))
  settled := fun hh hlen hk => by
    refine h'.settled (h.settled hh (by omega) hk) ?_ fun k hmem => ?_
    · rw [h.answers, List.length_drop]
      omega
    · rw [h.answers] at hmem
      exact hk k (List.mem_of_mem_drop hmem)

/-- One call of the trap port, in sub-step (a) or in another. -/
theorem CallsMade.one {r : TrapRecord} {c : TrapCall} (hlog : t.env.log = r :: s.env.log)
    (ha : t.env.answers = (s.kernelReply c).2.answers) (hh : t.halted = (s.halted || (s.kernelReply c).1.halt)) :
    CallsMade 1 s t where
  log := by rw [hlog]; rfl
  answers := by
    cases h : s.env.answers with
    | nil => rw [ha, kernelReply_of_free h, h]; rfl
    | cons k rest => rw [ha, kernelReply_of_settled h]; rfl
  stays := fun h => by rw [hh, h, Bool.true_or]
  silent := by simp
  settled := fun hrun hlen hk => by
    obtain ⟨k, rest, h⟩ := List.exists_cons_of_length_pos hlen
    rw [hh, hrun, kernelReply_of_settled h]
    exact hk k (h ▸ List.mem_cons_self)

end callsMade

theorem Move.callsMade {s t : State} (h : Move s t) : ∃ n, CallsMade n s t := by
  cases h with
  | deviceTurn => exact ⟨0, .none (by simp) (by simp) (by simp)⟩
  | poll =>
    rcases poll_cases s with ⟨-, h⟩ | ⟨ev, -, h⟩ <;> rw [h]
    · exact ⟨0, .none rfl rfl rfl⟩
    · exact ⟨1, .one (s := s) (trapBeforeFetch_log _ ev.call) trapBeforeFetch_answers (trapBeforeFetch_halted _ ev.call)⟩
  | clearHold => exact ⟨0, .none rfl rfl rfl⟩
  | trap c => exact ⟨1, .one (trap_log s c) trap_answers (trap_halted s c)⟩
  | complete => exact ⟨0, .none rfl rfl rfl⟩
  | countTick => exact ⟨0, .none rfl rfl rfl⟩
  | advance => exact ⟨0, .none (by simp) (by simp) (by simp)⟩

theorem step_callsMade {s t : State} (h : step s = .next t) : ∃ n, CallsMade n s t := by
  refine moves_keep (P := fun u => ∃ n, CallsMade n s u) (fun huv hu => ?_) (step_moves h) ⟨0, .none rfl rfl rfl⟩
  obtain ⟨m, hm⟩ := hu
  obtain ⟨n, hn⟩ := huv.callsMade
  exact ⟨m + n, hm.trans hn⟩

theorem step_log_length_le {s t : State} (h : step s = .next t) : t.env.log.length ≤ s.env.log.length + 3 := by
  obtain ⟨io, sync, clk, hlog, hio, hsync, hclk, -⟩ := atMostThreeKernelCalls s t h
  simp only [hlog, List.length_append]
  omega

/-- Settles O56: the calls of a step, at most three, are the only source of `halted`. -/
theorem onlyTheKernelHalts : Obligations.OnlyTheKernelHalts := by
  intro s t h
  obtain ⟨n, hn⟩ := step_callsMade h
  have hlog := hn.log
  have hlen := step_log_length_le h
  refine ⟨hn.stays, fun hh ht => ?_, fun hh h3 => hn.settled hh (by omega)⟩
  have hpos : n ≠ 0 := fun h0 => by simp [hn.silent h0, hh] at ht
  omega

end Sys2Proof.Machine
end

section
/-! PROOFS. The run loop (50_engine_cycle.md R202, R204): fuel adds up, a run never stops on its own account, and it ends at the first
halting step. -/

namespace Sys2Proof.Machine

/-! ### The run loop -/

section runLoop
variable {s t e : State} {n : Nat}

/-- A halted engine performs nothing, whatever fuel is left (R202). -/
theorem runLoop_of_halted (n : Nat) (h : s.halted = true) : runLoop n s = .next s := by
  cases n <;> simp [runLoop, h]

theorem runLoop_succ (n : Nat) (h : s.halted = false) (hst : step s = .next t) : runLoop (n + 1) s = runLoop n t := by
  simp [runLoop, h, hst]

/-- A run with fuel left either stands at a halted state or made a step (R202). -/
theorem runLoop_succ_cases (h : runLoop (n + 1) s = .next t) :
    (s.halted = true ∧ s = t) ∨ (s.halted = false ∧ ∃ u, step s = .next u ∧ runLoop n u = .next t) := by
  cases hh : s.halted with
  | true => exact .inl ⟨rfl, Host.Outcome.next.inj ((runLoop_of_halted (n + 1) hh).symm.trans h)⟩
  | false =>
    refine .inr ⟨rfl, ?_⟩
    cases hst : step s with
    | next u => exact ⟨u, rfl, (runLoop_succ n hh hst).symm.trans h⟩
    | fault r => simp [runLoop, hh, hst] at h
    | refused r => simp [runLoop, hh, hst] at h

/-- More fuel continues the run that less fuel made. -/
theorem runLoop_add (m : Nat) (h : runLoop n s = .next t) : runLoop (n + m) s = runLoop m t := by
  induction n generalizing s with
  | zero =>
    obtain rfl := Host.Outcome.next.inj h
    rw [Nat.zero_add]
  | succ n ih =>
    rcases runLoop_succ_cases h with ⟨hh, rfl⟩ | ⟨hh, u, hst, hu⟩
    · rw [runLoop_of_halted _ hh, runLoop_of_halted _ hh]
    · rw [Nat.succ_add, runLoop_succ _ hh hst, ih hu]

/-- In a configuration of the block every run answers a state (R182). -/
theorem exists_runLoop (n : Nat) (h : configOk s.cfg = true) : ∃ t, runLoop n s = .next t := by
  induction n generalizing s with
  | zero => exact ⟨s, rfl⟩
  | succ n ih =>
    cases hh : s.halted with
    | true => exact ⟨s, runLoop_of_halted _ hh⟩
    | false =>
      obtain ⟨u, hst⟩ := exists_step h hh
      rw [runLoop_succ n hh hst]
      exact ih (configurationIsFixed s u hst ▸ h)

/-- The last running state of a run that ends halted. -/
theorem exists_halting_step (h : runLoop n s = .next e) (hs : s.halted = false) (he : e.halted = true) :
    ∃ k u, runLoop k s = .next u ∧ u.halted = false ∧ step u = .next e ∧
      ∀ j, j ≤ k → ∀ v, runLoop j s = .next v → v.halted = false := by
  induction n generalizing s with
  | zero =>
    obtain rfl := Host.Outcome.next.inj h
    simp [hs] at he
  | succ n ih =>
    rcases runLoop_succ_cases h with ⟨hh, -⟩ | ⟨-, w, hst, hw⟩
    · simp [hs] at hh
    · cases hwh : w.halted with
      | true =>
        obtain rfl := Host.Outcome.next.inj ((runLoop_of_halted n hwh).symm.trans hw)
        refine ⟨0, s, rfl, hs, hst, fun j hj v hv => ?_⟩
        obtain rfl := Nat.le_zero.1 hj
        exact Host.Outcome.next.inj hv ▸ hs
      | false =>
        obtain ⟨k, u, hu, huh, hstu, hfirst⟩ := ih hw hwh
        refine ⟨k + 1, u, (runLoop_succ k hs hst).trans hu, huh, hstu, fun j hj v hv => ?_⟩
        cases j with
        | zero => exact Host.Outcome.next.inj hv ▸ hs
        | succ j => exact hfirst j (by omega) v ((runLoop_succ j hs hst).symm.trans hv)

/-- A run has one end (R204). -/
theorem runEndsIn_unique {f : State} (he : runEndsIn s e) (hf : runEndsIn s f) : e = f := by
  obtain ⟨n, hn, hne⟩ := he
  obtain ⟨m, hm, hmf⟩ := hf
  have hleft : runLoop (n + m) s = .next e := by rw [runLoop_add m hn, runLoop_of_halted m hne]
  have hright : runLoop (m + n) s = .next f := by rw [runLoop_add n hm, runLoop_of_halted n hmf]
  rw [Nat.add_comm m n] at hright
  exact Host.Outcome.next.inj (hleft.symm.trans hright)

end runLoop

/-- Settles O57: the equations of the loop, fuel added up, and a step from every running state. -/
theorem runLoopStepsWhileNotHalted : Obligations.RunLoopStepsWhileNotHalted :=
  ⟨fun _ => rfl, fun n _ => runLoop_of_halted n, fun n _ _ => runLoop_succ n, fun _ m _ _ => runLoop_add m,
    fun n _ => exists_runLoop n⟩

/-- Settles O58: the halting step is a step that made a call, and the turn after its take is the last to fill the slot. -/
theorem runEndsAtTheFirstHalt : Obligations.RunEndsAtTheFirstHalt := by
  refine ⟨fun _ _ _ => runEndsIn_unique, fun s e hs ⟨n, hn, he⟩ => ?_, fun s t ev rest hs hp hst ht => ?_⟩
  · obtain ⟨k, u, hu, huh, hstu, hfirst⟩ := exists_halting_step hn hs he
    obtain ⟨-, hcalls, -⟩ := onlyTheKernelHalts u e hstu
    have hend : runLoop (k + 1) s = .next e := by rw [runLoop_add 1 hu, runLoop_succ 0 huh hstu]; rfl
    exact ⟨k, u, hu, huh, hstu, he, hcalls huh he, hfirst, fun m => by rw [runLoop_add m hend, runLoop_of_halted m he]⟩
  · have hslot := step_slot hs hst
    rw [deviceTurn_of_idle hp, withSlot_posts] at hslot
    exact ⟨⟨1, runLoop_succ 0 hs hst, ht⟩, hslot⟩

end Sys2Proof.Machine
end

section
/-! PROOFS. Confinement in segment mode (20_memory.md R68; 60_exceptions.md R253): the parts of a step that makes no call, and the one
store that an instruction can make. -/

namespace Sys2Proof.Machine

theorem moves_log_length_le {s t : State} (h : Moves s t) : s.env.log.length ≤ t.env.log.length :=
  moves_keep (P := fun u => s.env.log.length ≤ u.env.log.length) (fun huv hu => by
    obtain ⟨n, hn⟩ := huv.callsMade
    have := hn.log
    omega) h le_rfl

/-- A poll that made no call did nothing (R191). -/
theorem poll_of_log_length_le {s : State} (h : s.poll.env.log.length ≤ s.env.log.length) : s.poll = s := by
  rcases poll_cases s with ⟨-, hp⟩ | ⟨ev, -, hp⟩
  · exact hp
  · rw [hp] at h
    simp at h

/-- Sub-steps (e) and (f) change memory by the clock's call alone (R196). -/
theorem finish_mem_of_log_length_le {s : State} (h : s.finish.env.log.length ≤ s.env.log.length) :
    s.finish.mem = s.mem := by
  have htick : s.finish = s ∨ (s.finish.env.log = s.tick.env.log ∧ s.finish.mem = s.tick.mem) := by
    rcases finish_cases s with ⟨-, hf⟩ | ⟨-, -, hf⟩ | ⟨-, -, hf⟩ <;> simp [hf]
  rcases htick with hf | ⟨hlog, hmem⟩
  · rw [hf]
  · rw [hlog] at h
    rcases tick_cases s with ht | ht <;> rw [ht] at h hmem
    · exact hmem
    · simp at h

/-- An instruction's one store lies in the window (R68). -/
theorem read_of_outside_window {s : State} {m : Memory} (hmode : s.cfg.mode = .segment) (hm : StoresAtMostOne s m)
    {a : Nat} (ha : (a : Int) < s.reg .base ∨ s.reg .lim < (a : Int)) : m.read a = s.mem.read a := by
  rcases hm with rfl | ⟨va, pa, r, hpa, rfl⟩
  · rfl
  · rw [translate_of_segment hmode] at hpa
    obtain ⟨-, hlo, hhi⟩ := translateSegment_window hpa
    exact Memory.read_write_other _ _ _ _ (by omega)

/-- Sub-steps (b) to (d) without a call change no word outside the window (R68, R253). -/
theorem fetchExecute_confined {s d : State} (hmode : s.cfg.mode = .segment) (h : s.fetchExecute = .next d)
    (hlog : d.env.log.length ≤ s.env.log.length) {a : Nat} (ha : (a : Int) < s.reg .base ∨ s.reg .lim < (a : Int)) :
    d.mem.read a = s.mem.read a := by
  cases fetchExecute_execution s with
  | raises c _ hblind =>
    obtain rfl := Host.Outcome.next.inj (h.symm.trans hblind.next)
    simp at hlog
  | completes x m hold hm _ hblind =>
    obtain rfl := Host.Outcome.next.inj (h.symm.trans hblind.next)
    exact read_of_outside_window hmode hm ha

/-- Settles O59: without a call the poll and the end of the cycle leave memory alone, and the window at the fetch is that of the
start. -/
theorem segmentModeConfinesStores : Obligations.SegmentModeConfinesStores := by
  intro s t hmode h hlog a ha
  have hlen : t.env.log.length ≤ s.env.log.length := by rw [hlog]
  have hquiet (hpoll : s.deviceTurn.poll.env.log.length ≤ s.env.log.length) : s.deviceTurn.poll = s.deviceTurn :=
    poll_of_log_length_le (by simpa using hpoll)
  obtain ⟨-, ⟨-, -, rfl⟩ | ⟨-, -, rfl⟩ | ⟨-, -, d, hd, rfl⟩⟩ := step_cases h
  · rw [deviceTurn_mem]
  · rw [deviceTurn_mem, hquiet (by simpa using hlen), deviceTurn_mem]
  · have hfetch : s.atFetch.env.log.length ≤ d.env.log.length := moves_log_length_le (.single (fetchExecute_move hd))
    have hfinish : d.env.log.length ≤ d.finish.env.log.length := moves_log_length_le (finish_moves d)
    have hstart : s.env.log.length ≤ s.atFetch.env.log.length := moves_log_length_le (atFetch_moves s)
    have hpoll : s.deviceTurn.poll = s.deviceTurn := hquiet (by rw [← atFetch_log]; omega)
    have hmem : s.atFetch.mem = s.mem := by rw [atFetch_mem, hpoll, deviceTurn_mem]
    have hregs : s.atFetch.regs = s.regs := by rw [atFetch_regs, hpoll, deviceTurn_regs]
    have hwindow : (a : Int) < s.atFetch.reg .base ∨ s.atFetch.reg .lim < (a : Int) := by
      simpa only [State.reg, hregs] using ha
    rw [finish_mem_of_log_length_le (by omega),
      fetchExecute_confined (by simpa using hmode) hd (by omega) hwindow, hmem]

end Sys2Proof.Machine
end

section
/-! PROOFS. The placing of a fetched word in the state right after reset (log 12). -/

namespace Sys2Proof.Machine

/-- The four words of a placed tuple are found at its addresses. -/
theorem placeTuple_read {s : State} (h : s.mem.wf = true) (pa : Nat) (t : Tuple) :
    (⟨(s.placeTuple pa t).mem.read pa, (s.placeTuple pa t).mem.read (pa + 1), (s.placeTuple pa t).mem.read (pa + 2),
      (s.placeTuple pa t).mem.read (pa + 3)⟩ : Tuple) = t := by
  have h1 := s.mem.write_wf pa t.w0 h
  have h2 := Memory.write_wf _ (pa + 1) t.w1 h1
  have h3 := Memory.write_wf _ (pa + 2) t.w2 h2
  simp [State.placeTuple, Memory.read_write_same, h, h1, h2, h3]

theorem configOk_worked : configOk .worked = true := by decide

/-- Right after reset virtual address 0 is address 0, whatever memory holds (R68). -/
theorem reset_placeTuple_translate (t : Tuple) : (State.reset.placeTuple 0 t).translate 0 = some 0 := by
  have hmode : (State.reset.placeTuple 0 t).cfg.mode = .segment := rfl
  rw [translate_of_segment hmode, translateSegment_eq_some_iff]
  exact ⟨rfl, le_rfl, le_rfl, (by decide : 0 < Config.worked.memSize)⟩

/-- A tuple placed at address 0 right after reset is the one fetched next. -/
theorem reset_placeTuple_fetch (t : Tuple) : (State.reset.placeTuple 0 t).fetch = some t := by
  refine fetchAt_eq_some_iff.2 ⟨0, reset_placeTuple_translate t, (by decide : 3 < Config.worked.memSize), ?_⟩
  exact (placeTuple_read reset_mem_wf 0 t).symm

/-- Right after reset a tuple is placed at address 0. -/
theorem reset_placeAtFetch (t : Tuple) : State.reset.placeAtFetch t = State.reset.placeTuple 0 t :=
  if_pos (reset_placeTuple_fetch t)

/-- The step from a tuple placed at address 0 right after reset runs its instruction. -/
theorem step_reset_placeTuple {t : Tuple} {i : Instr} (hi : decode .standard t = .ok i) :
    ∃ d, exec i (State.reset.placeTuple 0 t) = .next d ∧ step (State.reset.placeTuple 0 t) = .next d.finish := by
  obtain ⟨d, hd⟩ := exists_exec (State.reset.placeTuple 0 t) i
  exact ⟨d, hd, step_of_quiet configOk_worked rfl rfl rfl (reset_placeTuple_fetch t) hi hd⟩

/-- Settles O60: the placed word is the tuple at PC, and no event is at hand. -/
theorem placedWordRunsNext : Obligations.PlacedWordRunsNext := by
  intro w i hw
  rw [reset_withFetchWord, reset_placeAtFetch]
  exact step_reset_placeTuple ((decodeTableWord_eq_some 128 w i).1 hw)

end Sys2Proof.Machine
end
